-- ==== Sys2Proof/Word.lean ====
section
/-! DEFINITION. The word types: the 8-bit byte of registers, cells, operands and opcodes, and a register number. -/

namespace Sys2Proof

/-- A byte: an unsigned 8-bit value, bit 7 most significant (00_scope.md R9; XLEN = 8, R5). -/
abbrev Byte := BitVec 8

/-- A valid register number, 0..7 (10_state.md R21, R23; NREGS = 8, 00_scope.md R5). -/
abbrev Reg := Fin 8

end Sys2Proof
end

