-- ==== Sys2Proof/Config.lean ====
section
/-! DEFINITION. What is fixed for a machine: the sizes the spec fixes, the 23 mnemonics, the types of the descriptor
table, and the three open parameters that the machine takes as an argument. Their DEFAULTS stand where they can be mended:
OPCODE_MAP in Sys2Proof/Decode.lean, SP_INDEX and SP_INIT in Sys2Proof/Machine/Params.lean. -/

namespace Sys2Proof

/-- MEMSIZE: the number of memory cells, addresses 0..255 (00_scope.md R5, 20_memory.md R40). -/
abbrev Config.memSize : Nat := 256

/-- RESET_PC (00_scope.md R5). -/
abbrev Config.resetPc : Nat := 0

/-- LOAD_BASE: the address of the first byte of the program image (00_scope.md R5). -/
abbrev Config.loadBase : Nat := 0

/-- The longest instruction in bytes: an opcode and MAXOPERANDS = 2 operand bytes (00_scope.md R5, 30_encoding.md R60). -/
abbrev Config.maxLength : Nat := 3

/-- The 23 mnemonics, in the order of the table of 30_encoding.md R64. -/
inductive Mnemonic where
  | hlt | ldi | st | prn | pra
  | add | sub | mul | and | or | xor | shl | shr | mod | not | cmp
  | jeq | jne | jmp
  | push | pop | call | ret
  deriving DecidableEq, Repr

/-- OPCODE_MAP: the opcode byte of each mnemonic (30_encoding.md R65). -/
abbrev OpcodeMap := Mnemonic → Byte

/-- The one requirement on OPCODE_MAP: no two mnemonics share a byte (30_encoding.md R74). -/
def OpcodeMap.Legal (om : OpcodeMap) : Prop := ∀ m n : Mnemonic, om m = om n → m = n

/-- The open parameters of the machine (00_scope.md R5, 10_state.md R38): fixed for a run, an argument of the step and of
reset, and no part of the state. Only legal values can be given. -/
structure Params where
  /-- OPCODE_MAP (30_encoding.md R65; 93_implementation_defined.md U1). -/
  opcodeMap : OpcodeMap
  /-- SP_INDEX, in 0..7 (10_state.md R24; 93_implementation_defined.md U2). -/
  spIndex : Reg
  /-- SP_INIT (10_state.md R36; 93_implementation_defined.md U3). -/
  spInit : Byte
  /-- OPCODE_MAP is injective (30_encoding.md R74). -/
  opcodeMap_legal : opcodeMap.Legal
  /-- SP_INIT is in 1..255 (00_scope.md R5): "A model should not accept 0" (93_implementation_defined.md U3). -/
  spInit_ne_zero : spInit ≠ 0

/-- The kind of an operand byte (30_encoding.md R64; 90_conflicts.md C10). -/
inductive OperandKind where
  /-- A register number, validated (R62). -/
  | reg
  /-- LDI's immediate, never validated (R63). -/
  | imm
  /-- NOT's second byte: fetched, never validated, never used (R68). -/
  | ignored
  deriving DecidableEq, Repr

/-- One entry of the descriptor table (30_encoding.md R64; 00_scope.md R12, "Descriptor"). -/
structure Descriptor where
  /-- The kind of each operand byte, first operand first; its length is the operand count. -/
  operands : List OperandKind
  /-- The instruction sets `pc` itself and the loop adds nothing (00_scope.md R12, "owns-pc"). -/
  ownsPc : Bool
  deriving DecidableEq, Repr

/-- The operand count, 0, 1 or 2 (30_encoding.md R60). -/
def Descriptor.operandCount (d : Descriptor) : Nat := d.operands.length

end Sys2Proof
end

