-- ==== Sys2Proof/Syntax.lean ====
section
/-! DEFINITION. The instructions, one constructor per row of spec/opcode_table.json. -/

namespace Sys2Proof

/-- An instruction as fetched: its mnemonic and its operand BYTES `a` and `b`, each 0..255 (00_scope.md R11). A register
operand byte above 7 is an instruction the machine runs into a fault (30_encoding.md R62), so it is kept here and
checked when the instruction executes. NOT keeps its ignored byte. -/
inductive Instr where
  | hlt
  | ldi (a b : Byte)
  | st (a b : Byte)
  | prn (a : Byte)
  | pra (a : Byte)
  | add (a b : Byte)
  | sub (a b : Byte)
  | mul (a b : Byte)
  | and (a b : Byte)
  | or (a b : Byte)
  | xor (a b : Byte)
  | shl (a b : Byte)
  | shr (a b : Byte)
  | mod (a b : Byte)
  | not (a b : Byte)
  | cmp (a b : Byte)
  | jeq (a : Byte)
  | jne (a : Byte)
  | jmp (a : Byte)
  | push (a : Byte)
  | pop (a : Byte)
  | call (a : Byte)
  | ret
  deriving DecidableEq, Repr

end Sys2Proof
end

