-- ==== Sys2Proof/WellFormed.lean ====
section
/-! DEFINITION. Well-formed instructions: every operand byte of kind `reg` names one of the eight registers. -/

namespace Sys2Proof

/-- The operand bytes of kind `reg`, first operand first (30_encoding.md R64). LDI's immediate and NOT's ignored byte are
not among them (R68). -/
def Instr.registerOperands : Instr → List Byte
  | .hlt => []
  | .ldi a _ => [a]
  | .st a b => [a, b]
  | .prn a => [a]
  | .pra a => [a]
  | .add a b => [a, b]
  | .sub a b => [a, b]
  | .mul a b => [a, b]
  | .and a b => [a, b]
  | .or a b => [a, b]
  | .xor a b => [a, b]
  | .shl a b => [a, b]
  | .shr a b => [a, b]
  | .mod a b => [a, b]
  | .not a _ => [a]
  | .cmp a b => [a, b]
  | .jeq a => [a]
  | .jne a => [a]
  | .jmp a => [a]
  | .push a => [a]
  | .pop a => [a]
  | .call a => [a]
  | .ret => []

/-- The whole byte is the register number, and 0..7 are the valid ones (10_state.md R23, 30_encoding.md R62). -/
def validRegister (b : Byte) : Bool := decide (b.toNat < 8)

/-- The first register operand that names no register, if there is one (40_dispatch_and_halt.md R85). -/
def Instr.firstInvalidRegister (i : Instr) : Option Byte :=
  i.registerOperands.find? (fun b => !validRegister b)

/-- No register operand is above 7 (30_encoding.md R62). -/
def Instr.WellFormed (i : Instr) : Bool := i.registerOperands.all validRegister

end Sys2Proof
end

