-- ==== Sys2Proof/Decode.lean ====
section
/-! DEFINITION. The descriptor table, the opcode map, the decoder (total on any bytes, rejecting by name) and the encoder. -/

namespace Sys2Proof

/-- The descriptor table of 30_encoding.md R64: operand kinds and the owns-pc property of each mnemonic. -/
def descriptor : Mnemonic → Descriptor
  | .hlt => ⟨[], false⟩
  | .ldi => ⟨[.reg, .imm], false⟩
  | .st => ⟨[.reg, .reg], false⟩
  | .prn => ⟨[.reg], false⟩
  | .pra => ⟨[.reg], false⟩
  | .add => ⟨[.reg, .reg], false⟩
  | .sub => ⟨[.reg, .reg], false⟩
  | .mul => ⟨[.reg, .reg], false⟩
  | .and => ⟨[.reg, .reg], false⟩
  | .or => ⟨[.reg, .reg], false⟩
  | .xor => ⟨[.reg, .reg], false⟩
  | .shl => ⟨[.reg, .reg], false⟩
  | .shr => ⟨[.reg, .reg], false⟩
  | .mod => ⟨[.reg, .reg], false⟩
  | .not => ⟨[.reg, .ignored], false⟩
  | .cmp => ⟨[.reg, .reg], false⟩
  | .jeq => ⟨[.reg], true⟩
  | .jne => ⟨[.reg], true⟩
  | .jmp => ⟨[.reg], true⟩
  | .push => ⟨[.reg], false⟩
  | .pop => ⟨[.reg], false⟩
  | .call => ⟨[.reg], true⟩
  | .ret => ⟨[], true⟩

/-- The default of the open parameter OPCODE_MAP: that of 30_encoding.md R65. PRESUMED (log 1): the spec marks these
bytes as general knowledge of the LS-8 family, not of its source (92_eei_decisions.md D1). -/
def opcodeMap : OpcodeMap
  | .hlt => 0x01
  | .ret => 0x11
  | .push => 0x45
  | .pop => 0x46
  | .prn => 0x47
  | .pra => 0x48
  | .call => 0x50
  | .jmp => 0x54
  | .jeq => 0x55
  | .jne => 0x56
  | .not => 0x69
  | .ldi => 0x82
  | .st => 0x84
  | .add => 0xA0
  | .sub => 0xA1
  | .mul => 0xA2
  | .mod => 0xA4
  | .cmp => 0xA7
  | .and => 0xA8
  | .or => 0xAA
  | .xor => 0xAB
  | .shl => 0xAC
  | .shr => 0xAD

/-- The default map is legal (30_encoding.md R74). -/
theorem opcodeMap_legal : opcodeMap.Legal := by
  intro m n h
  revert h
  cases m <;> cases n <;> decide

/-- All 23 mnemonics, in the order of 30_encoding.md R64. -/
def allMnemonics : List Mnemonic :=
  [.hlt, .ldi, .st, .prn, .pra] ++
  [.add, .sub, .mul, .and, .or, .xor, .shl, .shr, .mod, .not, .cmp] ++
  [.jeq, .jne, .jmp] ++ [.push, .pop, .call, .ret]

/-- Descriptor resolution: the mnemonic a byte is mapped to, the whole byte compared (30_encoding.md R66,
40_dispatch_and_halt.md R83). -/
def lookupOpcode (om : OpcodeMap) (op : Byte) : Option Mnemonic :=
  allMnemonics.find? (fun m => om m == op)

/-- The mnemonic of an instruction. -/
def Instr.mnemonic : Instr → Mnemonic
  | .hlt => .hlt
  | .ldi _ _ => .ldi
  | .st _ _ => .st
  | .prn _ => .prn
  | .pra _ => .pra
  | .add _ _ => .add
  | .sub _ _ => .sub
  | .mul _ _ => .mul
  | .and _ _ => .and
  | .or _ _ => .or
  | .xor _ _ => .xor
  | .shl _ _ => .shl
  | .shr _ _ => .shr
  | .mod _ _ => .mod
  | .not _ _ => .not
  | .cmp _ _ => .cmp
  | .jeq _ => .jeq
  | .jne _ => .jne
  | .jmp _ => .jmp
  | .push _ => .push
  | .pop _ => .pop
  | .call _ => .call
  | .ret => .ret

/-- The operand bytes of an instruction, in the order they stand in memory (20_memory.md R45). -/
def Instr.operands : Instr → List Byte
  | .hlt => []
  | .ldi a b => [a, b]
  | .st a b => [a, b]
  | .prn a => [a]
  | .pra a => [a]
  | .add a b => [a, b]
  | .sub a b => [a, b]
  | .mul a b => [a, b]
  | .and a b => [a, b]
  | .or a b => [a, b]
  | .xor a b => [a, b]
  | .shl a b => [a, b]
  | .shr a b => [a, b]
  | .mod a b => [a, b]
  | .not a b => [a, b]
  | .cmp a b => [a, b]
  | .jeq a => [a]
  | .jne a => [a]
  | .jmp a => [a]
  | .push a => [a]
  | .pop a => [a]
  | .call a => [a]
  | .ret => []

/-- The length of an instruction: its opcode byte and its operand bytes (30_encoding.md R60, R69). -/
def Mnemonic.length (m : Mnemonic) : Nat := 1 + (descriptor m).operandCount

/-- The instruction with this mnemonic and these operand bytes; a byte the mnemonic has no operand for is dropped. -/
def instrOf (m : Mnemonic) (a b : Byte) : Instr :=
  match m with
  | .hlt => .hlt
  | .ldi => .ldi a b
  | .st => .st a b
  | .prn => .prn a
  | .pra => .pra a
  | .add => .add a b
  | .sub => .sub a b
  | .mul => .mul a b
  | .and => .and a b
  | .or => .or a b
  | .xor => .xor a b
  | .shl => .shl a b
  | .shr => .shr a b
  | .mod => .mod a b
  | .not => .not a b
  | .cmp => .cmp a b
  | .jeq => .jeq a
  | .jne => .jne a
  | .jmp => .jmp a
  | .push => .push a
  | .pop => .pop a
  | .call => .call a
  | .ret => .ret

/-- Why bytes are no instruction, with the bytes that had been read. -/
inductive DecodeError where
  /-- There is no opcode byte (40_dispatch_and_halt.md R82). -/
  | noOpcode
  /-- The opcode byte is not mapped (40_dispatch_and_halt.md R83). -/
  | invalidOpcode (op : Byte)
  /-- The first operand byte is missing (40_dispatch_and_halt.md R84). -/
  | noFirstOperand (op : Byte)
  /-- The second operand byte is missing (40_dispatch_and_halt.md R84). -/
  | noSecondOperand (op a : Byte)
  deriving DecidableEq, Repr

/-- The decoder under an opcode map: the instruction at the head of the bytes and the bytes after it. Lengths come from
the descriptor, never from opcode bits (30_encoding.md R66). -/
def decodeWith (om : OpcodeMap) (bytes : List Byte) : Except DecodeError (Instr × List Byte) :=
  match bytes with
  | [] => .error .noOpcode
  | op :: rest =>
    match lookupOpcode om op with
    | none => .error (.invalidOpcode op)
    | some m =>
      match (descriptor m).operandCount, rest with
      | 0, rest => .ok (instrOf m 0 0, rest)
      | 1, a :: rest => .ok (instrOf m a 0, rest)
      | _ + 2, a :: b :: rest => .ok (instrOf m a b, rest)
      | _ + 1, [] => .error (.noFirstOperand op)
      | _ + 2, [a] => .error (.noSecondOperand op a)

/-- The decoder under the default map. -/
def decode (bytes : List Byte) : Except DecodeError (Instr × List Byte) := decodeWith opcodeMap bytes

/-- The encoder under an opcode map: the opcode byte at the lowest address, then the operand bytes (30_encoding.md R61,
20_memory.md R45). -/
def encodeWith (om : OpcodeMap) (i : Instr) : List Byte := om i.mnemonic :: i.operands

/-- The encoder under the default map. -/
def encode (i : Instr) : List Byte := encodeWith opcodeMap i

/-- The bytes in memory order of an instruction whose bits are `w`, bit 0 the least significant bit of its first byte;
every bit from `nbits` up is zero, up to the longest instruction. -/
def tableBytes (nbits w : Nat) : List Byte :=
  let v := w % 2 ^ nbits
  [BitVec.ofNat 8 v, BitVec.ofNat 8 (v / 256), BitVec.ofNat 8 (v / 65536)]

/-- The instruction the decoder reads from a word numbered as spec/opcode_table.json numbers it. -/
def decodeTableWord (nbits w : Nat) : Option Instr :=
  match decode (tableBytes nbits w) with
  | .ok (i, _) => some i
  | .error _ => none

end Sys2Proof
end

