-- ==== Sys2Proof/Machine/Params.lean ====
section
/-! DEFINITION. The defaults of the open parameters SP_INDEX and SP_INIT (00_scope.md R5), which the machine takes as an argument
(Params of Config.lean). They stand here, and not in Config.lean, so that they can be mended. -/

namespace Sys2Proof.Machine

/-- SP_INDEX: the register that is the stack pointer. PRESUMED 7 (log 2): the default of 00_scope.md R5 and 10_state.md
R24, which the spec marks as general knowledge of the LS-8 family (92_eei_decisions.md D2). -/
def spIndex : Reg := 7

/-- SP_INIT: the stack pointer after reset, in 1..255. PRESUMED 0xF4 (log 3): the default of 00_scope.md R5 and 10_state.md
R36, which the spec marks as general knowledge of the LS-8 family (92_eei_decisions.md D3). -/
def spInit : Byte := 0xF4

/-- The default is in 1..255 (00_scope.md R5). -/
theorem spInit_ne_zero : spInit ≠ 0 := by decide

end Sys2Proof.Machine
end

