-- ==== Sys2Proof/Machine/State.lean ====
section
/-! DEFINITION. The state of the machine (10_state.md R20: exactly eight components; and the output trace, R33), its value
after reset, and the reasons a step can stop. -/

namespace Sys2Proof.Machine

/-- Memory as listed cells (address, byte), addresses strictly rising, no cell equal to what an unlisted address reads as.
`Memory.wf` of Ops.lean says the form. -/
abbrev Memory := List Host.Cell

/-- The run state (10_state.md R31). -/
inductive RunState where
  | running
  | halted
  deriving DecidableEq, Repr

/-- The six causes of the spec's faults, each with its own argument, in the order of 60_exceptions.md R167. -/
inductive Cause where
  /-- The opcode byte is not mapped (R161). -/
  | invalidOpcode (byte : Byte)
  /-- A register operand byte is above 7 (R162). -/
  | invalidOperandRegister (index : Byte)
  /-- A checked access to an address above 255 (R163); the address is the un-narrowed integer. -/
  | outOfBoundsMemoryAccess (address : Nat)
  /-- The stack pointer would go below 0 (R164, 45_stack_call.md R155). -/
  | stackUnderflow
  /-- The stack pointer would go above 255 (R165, 45_stack_call.md R155). -/
  | stackOverflow
  /-- MOD by zero (R166). -/
  | divisionByZero
  deriving DecidableEq, Repr

/-- The fault record (10_state.md R32): cause, address of the faulting instruction, and what had been fetched. -/
structure FaultRecord where
  cause : Cause
  pc : Nat
  opcode : Option Byte
  a : Option Byte
  b : Option Byte
  deriving DecidableEq, Repr

/-- One output event (10_state.md R33, 42_output.md R112). -/
inductive Event where
  /-- PRN's: the host renders the value as a decimal numeral (R110). -/
  | dec (v : Byte)
  /-- PRA's: the host renders the value as a character (R111). -/
  | chr (v : Byte)
  deriving DecidableEq, Repr

/-- The machine's state. -/
structure State where
  /-- `x[0]` .. `x[7]` (10_state.md R21); the stack pointer is `x[SP_INDEX]` (R24). -/
  regs : Vector Byte 8
  /-- The program counter, an integer, 0..256 in every state a run reaches (10_state.md R25; log 10). -/
  pc : Nat
  /-- Equal (10_state.md R27). -/
  flagE : Bool
  /-- Less (10_state.md R27). -/
  flagL : Bool
  /-- Greater (10_state.md R27). -/
  flagG : Bool
  /-- `M[0]` .. `M[255]` (10_state.md R30). -/
  mem : Memory
  /-- Running or Halted (10_state.md R31). -/
  run : RunState
  /-- The fault record, `none` until a fault (10_state.md R32). -/
  fault : Option FaultRecord
  /-- The output trace, oldest event first (10_state.md R33). -/
  out : List Event
  deriving DecidableEq, Repr

/-- Why a step stops without a next state. The spec's six faults are NOT here: the spec describes their entry (run becomes
Halted, the record is written, 60_exceptions.md R169), so a step that raises one answers that next state. -/
inductive Fault where
  /-- Raised by `step`, and by nothing else, in a Halted machine: "A Halted machine has no step" (40_dispatch_and_halt.md
  R80; 93_implementation_defined.md U7, treatment "stuck"). Safe: nothing can be claimed of a next state there. -/
  | halted
  deriving DecidableEq, Repr

/-- Why the model has no meaning for an instruction. -/
inductive Refusal where
  /-- Raised by a dispatch arm of an instruction without a meaning; there is none in this model. Safe. -/
  | notModelled (mnemonic : String)
  deriving DecidableEq, Repr

/-- The machine right after reset, before the loader writes the image, with `init` in the stack pointer `sp`
(10_state.md R36, 70_reset_and_hazards.md R180). `run`, `fault` and `out` are the spec's own decisions (logs 6, 7, 8). -/
def State.resetAt (sp : Reg) (init : Byte) : State where
  regs := (Vector.replicate 8 (0 : Byte)).set sp init
  pc := Config.resetPc
  flagE := false
  flagL := false
  flagG := false
  mem := []
  run := .running
  fault := none
  out := []

/-- The machine right after reset, with the default SP_INDEX and SP_INIT (logs 2, 3). -/
def State.reset : State := State.resetAt spIndex spInit

end Sys2Proof.Machine
end

