-- ==== Sys2Proof/Machine/Ops.lean ====
section
/-! DEFINITION. The named operations over memory, registers, the stack pointer and the output trace; taking a fault; and how
an instruction ends. What depends on an open parameter takes it as an argument; beside it stands its form under the default. -/

namespace Sys2Proof.Machine

/-! ### Memory -/

/-- What an unlisted address reads as: every cell is 0 after reset (10_state.md R36). -/
def Memory.unlisted : Byte := 0

/-- `M[a]`: the byte listed for the address, else the reset contents. -/
def Memory.read : Memory → Nat → Byte
  | [], _ => Memory.unlisted
  | c :: m, a => if c.1 = a then c.2 else Memory.read m a

/-- The memory without a listed cell at the address. -/
def Memory.erase (m : Memory) (a : Nat) : Memory := m.filter (fun c => decide (c.1 ≠ a))

/-- The memory with one cell put at its place in rising order. -/
def Memory.insert : Memory → Nat → Byte → Memory
  | [], a, v => [(a, v)]
  | c :: m, a, v => if a < c.1 then (a, v) :: c :: m else c :: Memory.insert m a v

/-- `M[a] <- v`, keeping the canonical form: writing what an unlisted address reads as removes the entry. -/
def Memory.write (m : Memory) (a : Nat) (v : Byte) : Memory :=
  if v = Memory.unlisted then Memory.erase m a else Memory.insert (Memory.erase m a) a v

/-- The canonical form: addresses strictly rising and inside the space, no entry equal to what an unlisted address reads
as. -/
def Memory.wf (m : Memory) : Bool :=
  decide (List.Pairwise (fun c d : Host.Cell => c.1 < d.1) m) &&
    m.all (fun c => decide (c.1 < Config.memSize) && decide (c.2 ≠ Memory.unlisted))

/-- Bytes stored at ascending addresses; a byte whose address does not exist is dropped. -/
def Memory.storeBytes (m : Memory) (a : Nat) : List Byte → Memory
  | [] => m
  | v :: vs => Memory.storeBytes (if a < Config.memSize then Memory.write m a v else m) (a + 1) vs

/-- `MemRead(addr, 1)`: the check is made on the un-narrowed integer (20_memory.md R41). -/
def memRead (s : State) (addr : Nat) : Except Cause Byte :=
  if addr < Config.memSize then .ok (s.mem.read addr) else .error (.outOfBoundsMemoryAccess addr)

/-- `MemWrite(addr, 1, v)` (20_memory.md R42). -/
def memWrite (s : State) (addr : Nat) (v : Byte) : Except Cause State :=
  if addr < Config.memSize then .ok { s with mem := s.mem.write addr v }
  else .error (.outOfBoundsMemoryAccess addr)

/-! ### Registers and the stack pointer -/

/-- A mathematical integer masked to 8 bits: `v mod 256` (00_scope.md R9, 10_state.md R22). -/
def narrow (v : Int) : Byte := BitVec.ofInt 8 v

/-- `x[i]`. -/
def readReg (s : State) (i : Reg) : Byte := s.regs[i]

/-- `x[i] <- v`, the value already masked (10_state.md R22). -/
def writeReg (s : State) (i : Reg) (v : Byte) : State := { s with regs := s.regs.set i v }

/-- `sp` under the default SP_INDEX (10_state.md R24). -/
def spValue (s : State) : Byte := readReg s spIndex

/-- The checked movement of the stack pointer, register `sp`, by PUSH, POP, CALL and RET: the new value is an un-narrowed integer, and
outside 0..255 it is a stack fault named by the direction, never a wrap (45_stack_call.md R150, R155). -/
def moveSpAt (sp : Reg) (s : State) (v : Int) : Except Cause State :=
  if v < 0 then .error .stackUnderflow
  else if 255 < v then .error .stackOverflow
  else .ok (writeReg s sp (narrow v))

/-- The checked movement under the default SP_INDEX. -/
def moveSp (s : State) (v : Int) : Except Cause State := moveSpAt spIndex s v

/-! ### Output -/

/-- `emit e` (42_output.md R112). -/
def emit (s : State) (e : Event) : State := { s with out := s.out ++ [e] }

/-! ### Taking a fault, and the end of an instruction -/

/-- TAKING A FAULT (60_exceptions.md R169): the machine halts, the record is written with the pc of the step and what had
been fetched, and nothing else changes. There is no return from it (R171). -/
def haltFaulted (c : Cause) (op a b : Option Byte) (s : State) : State :=
  { s with run := .halted, fault := some { cause := c, pc := s.pc, opcode := op, a := a, b := b } }

/-- A fault raised by an instruction that has been fetched whole under an opcode map: its opcode and operand bytes are
recorded. -/
def takeFaultWith (om : OpcodeMap) (c : Cause) (i : Instr) (s : State) : State :=
  haltFaulted c (some (om i.mnemonic)) i.operands[0]? i.operands[1]? s

/-- The same under the default map. -/
def takeFault (c : Cause) (i : Instr) (s : State) : State := takeFaultWith opcodeMap c i s

/-- Part 5 of the step (40_dispatch_and_halt.md R81, R87): HLT and the owns-pc instructions get no advance, every other
instruction leaves `pc` after its last byte, not reduced modulo 256. -/
def advance (i : Instr) (s : State) : State :=
  if i.mnemonic = .hlt then s
  else if (descriptor i.mnemonic).ownsPc then s
  else { s with pc := s.pc + i.mnemonic.length }

/-- How an instruction ends that began in `s`: with the state its own rule leaves, advanced; or, where its rule raised a
fault, with that fault taken in `s`, so that nothing the rule wrote stands (60_exceptions.md R170). -/
def concludeWith (om : OpcodeMap) (i : Instr) (s : State) (r : Except Cause State) :
    Host.Outcome State Fault Refusal :=
  match r with
  | .ok t => .next (advance i t)
  | .error c => .next (takeFaultWith om c i s)

/-- The same under the default map. -/
def conclude (i : Instr) (s : State) (r : Except Cause State) : Host.Outcome State Fault Refusal :=
  concludeWith opcodeMap i s r

end Sys2Proof.Machine
end

