-- ==== Sys2Proof/Machine/Flags.lean ====
section
/-! DEFINITION. The one flag computation: the unsigned comparison of CMP (43_alu.md R131). -/

namespace Sys2Proof.Machine

/-- `E <- (va = vb) ; L <- (va < vb) ; G <- (va > vb)`, the values unsigned (43_alu.md R131). -/
def compareFlags (va vb : Byte) (s : State) : State :=
  { s with
    flagE := decide (va.toNat = vb.toNat)
    flagL := decide (va.toNat < vb.toNat)
    flagG := decide (va.toNat > vb.toNat) }

end Sys2Proof.Machine
end

