-- ==== Sys2Proof/Machine/Operands.lean ====
section
/-! DEFINITION. The operand forms (30_encoding.md R61 to R63): a register byte, LDI's immediate byte. NOT's ignored byte has no
reader. -/

namespace Sys2Proof.Machine

/-- A register operand: the whole byte is the number; 8..255 raise InvalidOperandRegister with that byte
(40_dispatch_and_halt.md R85, 30_encoding.md R62). -/
def regOperand (b : Byte) : Except Cause Reg :=
  if h : b.toNat < 8 then .ok ⟨b.toNat, h⟩ else .error (.invalidOperandRegister b)

/-- The immediate operand: the byte as it is, unsigned, not extended, scaled or shifted (30_encoding.md R63). -/
def immOperand (b : Byte) : Byte := b

/-- The operand byte that names a register. -/
def regByte (r : Reg) : Byte := BitVec.ofNat 8 r.val

end Sys2Proof.Machine
end

