-- ==== Sys2Proof/Machine/Alu.lean ====
section
/-! DEFINITION. The eleven ALU instructions (43_alu.md). Each operation computes on the mathematical integers of the two byte
values and is masked to 8 bits (R120). -/

namespace Sys2Proof.Machine

/-! ### The operations -/

/-- `(va + vb) mod 256` (R121). -/
def aluAdd (va vb : Byte) : Byte := narrow ((va.toNat : Int) + vb.toNat)

/-- `(va - vb) mod 256`, the mathematical `mod` (R122). -/
def aluSub (va vb : Byte) : Byte := narrow ((va.toNat : Int) - vb.toNat)

/-- `(va * vb) mod 256` (R123). -/
def aluMul (va vb : Byte) : Byte := narrow ((va.toNat : Int) * vb.toNat)

/-- `va mod vb`, the unsigned remainder, or DivisionByZero (R124; log 18). -/
def aluMod (va vb : Byte) : Except Cause Byte :=
  if vb.toNat = 0 then .error .divisionByZero else .ok (narrow ((va.toNat : Int) % vb.toNat))

/-- `va & vb` (R125). -/
def aluAnd (va vb : Byte) : Byte := va &&& vb

/-- `va | vb` (R126). -/
def aluOr (va vb : Byte) : Byte := va ||| vb

/-- `va ^ vb` (R127). -/
def aluXor (va vb : Byte) : Byte := va ^^^ vb

/-- `255 - va` (R130). -/
def aluNot (va : Byte) : Byte := narrow (255 - (va.toNat : Int))

/-- `(va * 2^vb) mod 256`, the amount not reduced (R128; log 16). -/
def aluShl (va vb : Byte) : Byte := narrow ((va.toNat : Int) * (2 ^ vb.toNat : Nat))

/-- `va div 2^vb`, a logical shift, the amount not reduced (R129; log 16). -/
def aluShr (va vb : Byte) : Byte := narrow ((va.toNat : Int) / (2 ^ vb.toNat : Nat))

/-! ### The instructions -/

/-- The effect of the value-producing instructions with two register operands: both values are read first, the result is
written to the first operand's register (R120). -/
def aluBinary (a b : Byte) (f : Byte → Byte → Except Cause Byte) (s : State) : Except Cause State := do
  let r ← regOperand a
  let q ← regOperand b
  let v ← f (readReg s r) (readReg s q)
  return writeReg s r v

/-- The effect of ADD (R121). -/
def addEffect (a b : Byte) (s : State) : Except Cause State :=
  aluBinary a b (fun va vb => .ok (aluAdd va vb)) s

/-- ADD (R121). -/
def execAdd (a b : Byte) (s : State) : Host.Outcome State Fault Refusal :=
  conclude (.add a b) s (addEffect a b s)

/-- The effect of SUB (R122). -/
def subEffect (a b : Byte) (s : State) : Except Cause State :=
  aluBinary a b (fun va vb => .ok (aluSub va vb)) s

/-- SUB (R122). -/
def execSub (a b : Byte) (s : State) : Host.Outcome State Fault Refusal :=
  conclude (.sub a b) s (subEffect a b s)

/-- The effect of MUL (R123). -/
def mulEffect (a b : Byte) (s : State) : Except Cause State :=
  aluBinary a b (fun va vb => .ok (aluMul va vb)) s

/-- MUL (R123). -/
def execMul (a b : Byte) (s : State) : Host.Outcome State Fault Refusal :=
  conclude (.mul a b) s (mulEffect a b s)

/-- The effect of MOD (R124): the indices are checked before the divisor. -/
def modEffect (a b : Byte) (s : State) : Except Cause State :=
  aluBinary a b aluMod s

/-- MOD (R124). -/
def execMod (a b : Byte) (s : State) : Host.Outcome State Fault Refusal :=
  conclude (.mod a b) s (modEffect a b s)

/-- The effect of AND (R125). -/
def andEffect (a b : Byte) (s : State) : Except Cause State :=
  aluBinary a b (fun va vb => .ok (aluAnd va vb)) s

/-- AND (R125). -/
def execAnd (a b : Byte) (s : State) : Host.Outcome State Fault Refusal :=
  conclude (.and a b) s (andEffect a b s)

/-- The effect of OR (R126). -/
def orEffect (a b : Byte) (s : State) : Except Cause State :=
  aluBinary a b (fun va vb => .ok (aluOr va vb)) s

/-- OR (R126). -/
def execOr (a b : Byte) (s : State) : Host.Outcome State Fault Refusal :=
  conclude (.or a b) s (orEffect a b s)

/-- The effect of XOR (R127). -/
def xorEffect (a b : Byte) (s : State) : Except Cause State :=
  aluBinary a b (fun va vb => .ok (aluXor va vb)) s

/-- XOR (R127). -/
def execXor (a b : Byte) (s : State) : Host.Outcome State Fault Refusal :=
  conclude (.xor a b) s (xorEffect a b s)

/-- The effect of SHL (R128). -/
def shlEffect (a b : Byte) (s : State) : Except Cause State :=
  aluBinary a b (fun va vb => .ok (aluShl va vb)) s

/-- SHL (R128). -/
def execShl (a b : Byte) (s : State) : Host.Outcome State Fault Refusal :=
  conclude (.shl a b) s (shlEffect a b s)

/-- The effect of SHR (R129). -/
def shrEffect (a b : Byte) (s : State) : Except Cause State :=
  aluBinary a b (fun va vb => .ok (aluShr va vb)) s

/-- SHR (R129). -/
def execShr (a b : Byte) (s : State) : Host.Outcome State Fault Refusal :=
  conclude (.shr a b) s (shrEffect a b s)

/-- The effect of NOT (R130): unary; the second byte is part of the instruction and of a fault record, and is never read
otherwise. -/
def notEffect (a : Byte) (s : State) : Except Cause State := do
  let r ← regOperand a
  return writeReg s r (aluNot (readReg s r))

/-- NOT (R130). -/
def execNot (a b : Byte) (s : State) : Host.Outcome State Fault Refusal :=
  conclude (.not a b) s (notEffect a s)

/-- The effect of CMP (R131): writes the three flags and no register. -/
def cmpEffect (a b : Byte) (s : State) : Except Cause State := do
  let r ← regOperand a
  let q ← regOperand b
  return compareFlags (readReg s r) (readReg s q) s

/-- CMP (R131). -/
def execCmp (a b : Byte) (s : State) : Host.Outcome State Fault Refusal :=
  conclude (.cmp a b) s (cmpEffect a b s)

end Sys2Proof.Machine
end

