-- ==== Sys2Proof/Machine/Halt.lean ====
section
/-! DEFINITION. HLT (40_dispatch_and_halt.md R90). -/

namespace Sys2Proof.Machine

/-- The effect of HLT: `run <- Halted`, a clean halt; `pc` stays on the HLT byte (R90; log 11). -/
def hltEffect (s : State) : Except Cause State :=
  .ok { s with run := .halted }

/-- HLT (R90). -/
def execHlt (s : State) : Host.Outcome State Fault Refusal :=
  conclude .hlt s (hltEffect s)

end Sys2Proof.Machine
end

