-- ==== Sys2Proof/Machine/Jumps.lean ====
section
/-! DEFINITION. JEQ, JNE and JMP (44_jumps.md): owns-pc, the target is a register's value. -/

namespace Sys2Proof.Machine

/-- A conditional jump's effect: to `x[r]` when taken, else `pc <- p + 2` (R141, R142). -/
def jumpIf (taken : Bool) (r : Reg) (s : State) : State :=
  { s with pc := if taken then (readReg s r).toNat else s.pc + 2 }

/-- The effect of JEQ: taken when E is set; the register number is validated either way (R140, R141). -/
def jeqEffect (a : Byte) (s : State) : Except Cause State := do
  let r ← regOperand a
  return jumpIf s.flagE r s

/-- JEQ (R141). -/
def execJeq (a : Byte) (s : State) : Host.Outcome State Fault Refusal :=
  conclude (.jeq a) s (jeqEffect a s)

/-- The effect of JNE: taken when E is clear (R142). -/
def jneEffect (a : Byte) (s : State) : Except Cause State := do
  let r ← regOperand a
  return jumpIf (!s.flagE) r s

/-- JNE (R142). -/
def execJne (a : Byte) (s : State) : Host.Outcome State Fault Refusal :=
  conclude (.jne a) s (jneEffect a s)

/-- The effect of JMP: `pc <- x[a]` (R143). -/
def jmpEffect (a : Byte) (s : State) : Except Cause State := do
  let r ← regOperand a
  return { s with pc := (readReg s r).toNat }

/-- JMP (R143). -/
def execJmp (a : Byte) (s : State) : Host.Outcome State Fault Refusal :=
  conclude (.jmp a) s (jmpEffect a s)

end Sys2Proof.Machine
end

