-- ==== Sys2Proof/Machine/LoadStore.lean ====
section
/-! DEFINITION. LDI and ST (41_load_store.md). -/

namespace Sys2Proof.Machine

/-- The effect of LDI: `x[a] <- b` (R100). -/
def ldiEffect (a b : Byte) (s : State) : Except Cause State := do
  let r ← regOperand a
  return writeReg s r (immOperand b)

/-- LDI (R100). -/
def execLdi (a b : Byte) (s : State) : Host.Outcome State Fault Refusal :=
  conclude (.ldi a b) s (ldiEffect a b s)

/-- The effect of ST: `M[x[a]] <- x[b]` (R101; log 21). -/
def stEffect (a b : Byte) (s : State) : Except Cause State := do
  let r ← regOperand a
  let q ← regOperand b
  memWrite s (readReg s r).toNat (readReg s q)

/-- ST (R101). -/
def execSt (a b : Byte) (s : State) : Host.Outcome State Fault Refusal :=
  conclude (.st a b) s (stEffect a b s)

end Sys2Proof.Machine
end

