-- ==== Sys2Proof/Machine/Output.lean ====
section
/-! DEFINITION. PRN and PRA (42_output.md). -/

namespace Sys2Proof.Machine

/-- The effect of PRN: `emit Dec(x[a])` (R110). -/
def prnEffect (a : Byte) (s : State) : Except Cause State := do
  let r ← regOperand a
  return emit s (.dec (readReg s r))

/-- PRN (R110). -/
def execPrn (a : Byte) (s : State) : Host.Outcome State Fault Refusal :=
  conclude (.prn a) s (prnEffect a s)

/-- The effect of PRA: `emit Chr(x[a])` (R111). -/
def praEffect (a : Byte) (s : State) : Except Cause State := do
  let r ← regOperand a
  return emit s (.chr (readReg s r))

/-- PRA (R111). -/
def execPra (a : Byte) (s : State) : Host.Outcome State Fault Refusal :=
  conclude (.pra a) s (praEffect a s)

end Sys2Proof.Machine
end

