-- ==== Sys2Proof/Machine/Stack.lean ====
section
/-! DEFINITION. PUSH, POP, CALL and RET (45_stack_call.md). Each is the sequence of the spec's statements, a later one seeing
the earlier one's write (R156; log 14); where a check fails nothing is written, since the fault is taken in the state
before (Ops.lean, concludeWith). The effects take the stack pointer's index SP_INDEX as an argument (R150). -/

namespace Sys2Proof.Machine

/-- The effect of PUSH: `sp <- sp - 1`, checked; then `M[sp] <- x[a]`, `x[a]` read after `sp` has been updated (R151). -/
def pushEffect (sp : Reg) (a : Byte) (s : State) : Except Cause State := do
  let r ← regOperand a
  let s1 ← moveSpAt sp s ((readReg s sp).toNat - 1)
  memWrite s1 (readReg s1 sp).toNat (readReg s1 r)

/-- PUSH (R151). -/
def execPush (a : Byte) (s : State) : Host.Outcome State Fault Refusal :=
  conclude (.push a) s (pushEffect spIndex a s)

/-- The effect of POP: `x[a] <- M[sp]`; then `sp <- sp + 1`, checked, which sees the value just loaded when the register is
the stack pointer (R152). -/
def popEffect (sp : Reg) (a : Byte) (s : State) : Except Cause State := do
  let r ← regOperand a
  let v ← memRead s (readReg s sp).toNat
  let s1 := writeReg s r v
  moveSpAt sp s1 ((readReg s1 sp).toNat + 1)

/-- POP (R152). -/
def execPop (a : Byte) (s : State) : Host.Outcome State Fault Refusal :=
  conclude (.pop a) s (popEffect spIndex a s)

/-- The return address of a CALL at `p`: the address after its two bytes, which must exist (R153; log 15). -/
def returnAddress (p : Nat) : Except Cause Byte :=
  if 255 < p + 2 then .error (.outOfBoundsMemoryAccess (p + 2)) else .ok (narrow ((p + 2 : Nat) : Int))

/-- The effect of CALL: the return address must exist, tested before the stack; push it; then `pc <- x[a]`, read after `sp`
has been updated (R153; log 15). -/
def callEffect (sp : Reg) (a : Byte) (s : State) : Except Cause State := do
  let r ← regOperand a
  let ra ← returnAddress s.pc
  let s1 ← moveSpAt sp s ((readReg s sp).toNat - 1)
  let s2 ← memWrite s1 (readReg s1 sp).toNat ra
  return { s2 with pc := (readReg s2 r).toNat }

/-- CALL (R153). -/
def execCall (a : Byte) (s : State) : Host.Outcome State Fault Refusal :=
  conclude (.call a) s (callEffect spIndex a s)

/-- The effect of RET: `pc <- M[sp]` with `sp <- sp + 1`, checked (R154). -/
def retEffect (sp : Reg) (s : State) : Except Cause State := do
  let v ← memRead s (readReg s sp).toNat
  let s1 ← moveSpAt sp s ((readReg s sp).toNat + 1)
  return { s1 with pc := v.toNat }

/-- RET (R154). -/
def execRet (s : State) : Host.Outcome State Fault Refusal :=
  conclude .ret s (retEffect spIndex s)

end Sys2Proof.Machine
end

