-- ==== Sys2Proof/Machine/Fetch.lean ====
section
/-! DEFINITION. Fetching an instruction's bytes, the faults of the fetch (40_dispatch_and_halt.md R82 to R84), and the shape of a
step (R81). -/

namespace Sys2Proof.Machine

/-- The bytes at `a`, `a + 1`, …, at most `n` of them, as far as the addresses exist: nothing is read past 255, and
nothing wraps to address 0 (30_encoding.md R73). -/
def readWindow (m : Memory) : Nat → Nat → List Byte
  | 0, _ => []
  | n + 1, a => if a < Config.memSize then m.read a :: readWindow m n (a + 1) else []

/-- The bytes the decoder is given: those at `pc`, at most the longest instruction's (log 25). -/
def fetchWindow (s : State) : List Byte := readWindow s.mem Config.maxLength s.pc

/-- The fault of a fetch that found no instruction. A missing byte is one whose address is above 255; the address is
reported un-narrowed, and the bytes fetched before it are recorded (R82, R83, R84). -/
def fetchFault (e : DecodeError) (s : State) : State :=
  match e with
  | .noOpcode => haltFaulted (.outOfBoundsMemoryAccess s.pc) none none none s
  | .invalidOpcode op => haltFaulted (.invalidOpcode op) (some op) none none s
  | .noFirstOperand op => haltFaulted (.outOfBoundsMemoryAccess (s.pc + 1)) (some op) none none s
  | .noSecondOperand op a => haltFaulted (.outOfBoundsMemoryAccess (s.pc + 2)) (some op) (some a) none s

/-- One step under an opcode map, given what executes an instruction: a Halted machine has none (R80); a Running one
fetches at `pc` and executes the instruction, or takes the fault of the fetch. -/
def stepBy (om : OpcodeMap) (run : Instr → State → Host.Outcome State Fault Refusal) (s : State) :
    Host.Outcome State Fault Refusal :=
  match s.run with
  | .halted => .fault .halted
  | .running =>
    match decodeWith om (fetchWindow s) with
    | .ok (i, _) => run i s
    | .error e => .next (fetchFault e s)

end Sys2Proof.Machine
end

