-- ==== Sys2Proof/Machine/Step.lean ====
section
/-! DEFINITION. The step (40_dispatch_and_halt.md R81). -/

namespace Sys2Proof.Machine

/-- One step of the machine with the default parameters: `stepBy` of Fetch.lean. The step for any parameters is `stepWith`
(Parametric.lean). -/
def step (s : State) : Host.Outcome State Fault Refusal := stepBy opcodeMap exec s

/-- `s` with an instruction's bytes stored where the step fetches, at `pc`; a byte that would lie above 255 is dropped
(log 28). Nothing else changes; in the reset state this stands for the load of a program (log 9). -/
def State.withFetchWord (s : State) (nbits w : Nat) : State :=
  { s with mem := Memory.storeBytes s.mem s.pc (tableBytes nbits w) }

end Sys2Proof.Machine
end

