-- ==== Sys2Proof/Machine/Load.lean ====
section
/-! DEFINITION. The load phase (70_reset_and_hazards.md R182, R183): not a sequence of steps, but the initial state of a run. -/

namespace Sys2Proof.Machine

/-- The launch state over a reset state: the image at address 0 upward, the other cells still 0 (R182, R183); an image of
more than 256 bytes is refused and no run starts (20_memory.md R53; log 9). -/
def loadOver (reset : State) (image : List Byte) : Option State :=
  if image.length ≤ Config.memSize then
    some { reset with mem := Memory.storeBytes reset.mem Config.loadBase image }
  else none

/-- The launch state with the default parameters. -/
def load (image : List Byte) : Option State := loadOver State.reset image

end Sys2Proof.Machine
end

