-- ==== Sys2Proof/Machine/Parametric.lean ====
section
/-! DEFINITION. The machine for any value of the open parameters OPCODE_MAP, SP_INDEX and SP_INIT, which it takes as an argument
(00_scope.md R5, 10_state.md R38). The names `exec`, `step`, `State.reset` and `load` are this machine at the defaults
(exec_eq and step_eq of Laws/Exec.lean prove it). -/

namespace Sys2Proof.Machine

/-- The defaults of the three parameters (30_encoding.md R65, 00_scope.md R5; logs 1, 2, 3). -/
def defaultParams : Params where
  opcodeMap := opcodeMap
  spIndex := spIndex
  spInit := spInit
  opcodeMap_legal := opcodeMap_legal
  spInit_ne_zero := spInit_ne_zero

/-- The effect of an instruction, the stack pointer being register `sp`; the opcode map plays no part in it
(93_implementation_defined.md U1). -/
def effect (sp : Reg) (i : Instr) (s : State) : Except Cause State :=
  match i with
  | .hlt => hltEffect s
  | .ldi a b => ldiEffect a b s
  | .st a b => stEffect a b s
  | .prn a => prnEffect a s
  | .pra a => praEffect a s
  | .add a b => addEffect a b s
  | .sub a b => subEffect a b s
  | .mul a b => mulEffect a b s
  | .and a b => andEffect a b s
  | .or a b => orEffect a b s
  | .xor a b => xorEffect a b s
  | .shl a b => shlEffect a b s
  | .shr a b => shrEffect a b s
  | .mod a b => modEffect a b s
  | .not a _ => notEffect a s
  | .cmp a b => cmpEffect a b s
  | .jeq a => jeqEffect a s
  | .jne a => jneEffect a s
  | .jmp a => jmpEffect a s
  | .push a => pushEffect sp a s
  | .pop a => popEffect sp a s
  | .call a => callEffect sp a s
  | .ret => retEffect sp s

/-- The execute part of the step, with the advance (40_dispatch_and_halt.md R86, R87). -/
def execWith (P : Params) (i : Instr) (s : State) : Host.Outcome State Fault Refusal :=
  concludeWith P.opcodeMap i s (effect P.spIndex i s)

/-- One step (40_dispatch_and_halt.md R81). -/
def stepWith (P : Params) (s : State) : Host.Outcome State Fault Refusal :=
  stepBy P.opcodeMap (execWith P) s

/-- The state right after reset (10_state.md R36). -/
def resetWith (P : Params) : State := State.resetAt P.spIndex P.spInit

/-- The launch state of a run (70_reset_and_hazards.md R182, R183). -/
def loadWith (P : Params) (image : List Byte) : Option State := loadOver (resetWith P) image

/-- The machine as the host's interface takes it, for any parameters. -/
def coreWith (P : Params) : Host.Core where
  State := State
  Fault := Fault
  Refusal := Refusal
  step := stepWith P
  reset := resetWith P

end Sys2Proof.Machine
end

