-- ==== Sys2Proof/Safety.lean ====
section
/-! DEFINITION. What the statements are written in: the invariant of every step, the two kinds of halt, what a frame leaves
unchanged, and the step of the spec written out literally. -/

namespace Sys2Proof.Machine

/-! ### Invariants and halts -/

/-- At most one of the three flags is set (10_state.md R37; all three are clear at reset, 90_conflicts.md C1). -/
def AtMostOneFlag (s : State) : Prop :=
  (s.flagE && s.flagL) = false ∧ (s.flagE && s.flagG) = false ∧ (s.flagL && s.flagG) = false

/-- Exactly one flag is set, as after any CMP (10_state.md R29). -/
def ExactlyOneFlag (s : State) : Prop :=
  AtMostOneFlag s ∧ (s.flagE || s.flagL || s.flagG) = true

/-- The invariants of 10_state.md R37: `pc` in 0..256, memory in its canonical form inside the space, a fault record only
when Halted, at most one flag. (A register is a byte by its type.) -/
def StateInv (s : State) : Prop :=
  s.pc ≤ 256 ∧ s.mem.wf = true ∧ (s.fault.isSome = true → s.run = .halted) ∧ AtMostOneFlag s

/-- Halted with no fault, reached only by HLT (40_dispatch_and_halt.md R92). A claim that a program completes correctly
requires this, not merely a next state (60_exceptions.md R171; log 4). -/
def CleanHalt (s : State) : Prop := s.run = .halted ∧ s.fault = none

/-- Halted with a fault record (40_dispatch_and_halt.md R92). -/
def FaultedHalt (s : State) : Prop := s.run = .halted ∧ s.fault.isSome = true

/-! ### Frames -/

/-- The three flags are unchanged. -/
def SameFlags (s t : State) : Prop :=
  t.flagE = s.flagE ∧ t.flagL = s.flagL ∧ t.flagG = s.flagG

/-- Every byte of memory reads as before. -/
def SameMemory (s t : State) : Prop := ∀ x, t.mem.read x = s.mem.read x

/-- Every byte of memory outside one address reads as before. -/
def SameMemoryExcept (a : Nat) (s t : State) : Prop := ∀ x, x ≠ a → t.mem.read x = s.mem.read x

/-- Every register outside the list is unchanged. -/
def SameRegsExcept (rs : List Reg) (s t : State) : Prop := ∀ q, q ∉ rs → readReg t q = readReg s q

/-- The run state and the fault record are unchanged; or a fault was taken in `s`, and it changed nothing else
(60_exceptions.md R169, R170). -/
def SameRunOrFaulted (s t : State) : Prop :=
  (t.run = s.run ∧ t.fault = s.fault) ∨ ∃ c op a b, t = haltFaulted c op a b s

/-! ### Raising a fault -/

/-- The outcome is a fault with this cause: the machine halts and reports it (60_exceptions.md R160). What else the fault
leaves, and what else the record holds, is not said here. -/
def RaisesFault (c : Cause) (o : Host.Outcome State Fault Refusal) : Prop :=
  ∃ t f, o = .next t ∧ t.run = .halted ∧ t.fault = some f ∧ f.cause = c

/-- The instruction begun in `s` raises this fault before it has any effect (30_encoding.md R62): only `run` and `fault`
change. -/
def RaisesBeforeEffect (c : Cause) (s : State) (o : Host.Outcome State Fault Refusal) : Prop :=
  ∃ f, o = .next { s with run := .halted, fault := some f } ∧ f.cause = c

/-- An instruction one of whose operand bytes would lie at address 256 raises OutOfBoundsMemoryAccess(256)
(40_dispatch_and_halt.md R84). -/
def OperandFetchFaults (m : Mnemonic) : Prop :=
  ∀ s : State, s.run = .running → s.pc < 256 → s.mem.read s.pc = opcodeMap m → 256 < s.pc + m.length →
    RaisesFault (.outOfBoundsMemoryAccess 256) (step s)

/-! ### The step of 40_dispatch_and_halt.md R81, literally -/

/-- Part 3a: the first operand byte whose kind is `reg` and which is above 7. -/
def firstInvalidOperand : List OperandKind → List Byte → Option Byte
  | k :: ks, b :: bs => if k = .reg ∧ 7 < b.toNat then some b else firstInvalidOperand ks bs
  | _, _ => none

/-- Parts 3a to 5, all operand bytes fetched: validate centrally, then execute. -/
def validateAndExecute (op : Byte) (m : Mnemonic) (bytes : List Byte) (s : State) :
    Host.Outcome State Fault Refusal :=
  match firstInvalidOperand (descriptor m).operands bytes with
  | some bad => .next (haltFaulted (.invalidOperandRegister bad) (some op) bytes[0]? bytes[1]? s)
  | none => exec (instrOf m (bytes[0]?.getD 0) (bytes[1]?.getD 0)) s

/-- The step with one checked read for each byte, in the order R81 writes them. -/
def stepByChecks (s : State) : Host.Outcome State Fault Refusal :=
  match memRead s s.pc with
  | .error c => .next (haltFaulted c none none none s)
  | .ok op =>
    match lookupOpcode opcodeMap op with
    | none => .next (haltFaulted (.invalidOpcode op) (some op) none none s)
    | some m =>
      if (descriptor m).operandCount = 0 then validateAndExecute op m [] s
      else
        match memRead s (s.pc + 1) with
        | .error c => .next (haltFaulted c (some op) none none s)
        | .ok a =>
          if (descriptor m).operandCount = 1 then validateAndExecute op m [a] s
          else
            match memRead s (s.pc + 2) with
            | .error c => .next (haltFaulted c (some op) (some a) none s)
            | .ok b => validateAndExecute op m [a, b] s

end Sys2Proof.Machine
end

