-- ==== Sys2Proof/Certificates/Slice0/Obligations.lean ====
section
/-! DEFINITION. The statements for the provers. Each is about all states and all operands; `regByte r` ranges over the operand
bytes that name a register, and a byte above 7 is treated in statements of its own. The last section is about the machine for
any parameters, the others about the default ones; EveryOpcodeMapGivesTheSameMeaning carries what is said of `exec` over. -/

open Sys2Proof Sys2Proof.Machine

/-! ### Decoding and encoding -/

/-- Under every legal opcode map, decoding an encoded instruction gives it back and leaves the bytes after it
(30_encoding.md R60, R61, R64, R74). -/
def Obligations.DecodeEncodeUnderEveryLegalMap : Prop :=
  ∀ om : OpcodeMap, om.Legal → ∀ (i : Instr) (rest : List Byte),
    decodeWith om (encodeWith om i ++ rest) = .ok (i, rest)

/-- Bytes that decode are the encoding of what they decode to, followed by the rest: no bit is dropped, NOT's ignored byte
included (30_encoding.md R61, R66, R68). -/
def Obligations.EncodeDecodeUnderEveryMap : Prop :=
  ∀ (om : OpcodeMap) (bytes rest : List Byte) (i : Instr),
    decodeWith om bytes = .ok (i, rest) → encodeWith om i ++ rest = bytes

/-- The length of an instruction follows from its mnemonic alone: 1 for HLT and RET, 2 for the one-operand instructions, 3
for the rest; and it is what the decoder consumes (30_encoding.md R60, R69). -/
def Obligations.DecodeConsumesTheLength : Prop :=
  ∀ (bytes rest : List Byte) (i : Instr), decode bytes = .ok (i, rest) →
    bytes.length = rest.length +
      (if i.mnemonic ∈ [.hlt, .ret] then 1
       else if i.mnemonic ∈ [.prn, .pra, .jeq, .jne, .jmp, .push, .pop, .call] then 2 else 3)

/-- Words written out from the table of 30_encoding.md R65 decode to their instructions, and that map is legal. The bytes
are PRESUMED (log 1). -/
def Obligations.TableWordsDecode : Prop :=
  opcodeMap.Legal ∧
  decode [0x82, 0x00, 0x08] = .ok (.ldi 0 8, []) ∧
  decode [0xA2, 0x00, 0x01] = .ok (.mul 0 1, []) ∧
  decode [0x47, 0x00] = .ok (.prn 0, []) ∧
  decode [0x69, 0x01, 0xFF] = .ok (.not 1 0xFF, []) ∧
  decode [0x50, 0x01] = .ok (.call 1, []) ∧
  decode [0x56, 0x02] = .ok (.jne 2, []) ∧
  decode [0x01] = .ok (.hlt, [])

/-! ### The step -/

/-- When the bytes at `pc` decode, the step of a Running machine is `exec` of the instruction, and adds nothing around it:
the advance of `pc` is part of `exec` (40_dispatch_and_halt.md R81, R86). -/
def Obligations.StepRunsTheDecodedInstruction : Prop :=
  ∀ (s : State) (i : Instr) (rest : List Byte),
    s.run = .running → decode (fetchWindow s) = .ok (i, rest) → step s = exec i s

/-- The step is the five-part step of R81 with one checked read for each byte and the central operand check of part 3a
(where the check stands is the spec's own decision D13, log 17). -/
def Obligations.StepIsTheStepOfCheckedReads : Prop :=
  ∀ s : State, s.run = .running → step s = stepByChecks s

/-- A step is defined exactly when the machine is Running (40_dispatch_and_halt.md R80, R81). That a step which raises a fault
has a next state too is log 4, and the form in which a Halted machine has none is log 5, both DESIGN CHOICE. -/
def Obligations.StepDefinedExactlyWhenRunning : Prop :=
  ∀ s : State, (∃ t, step s = .next t) ↔ s.run = .running

/-- `exec` answers a next state for every instruction, operand byte and state: no instruction is refused and none stops
(60_exceptions.md section 4: every fault is a transition to Halted, log 4). That it does so also in a Halted state and for a
`pc` past the space, where no step runs it, is log 24, DESIGN CHOICE. -/
def Obligations.ExecAlwaysAnswersNext : Prop :=
  ∀ (i : Instr) (s : State), ∃ t, exec i s = .next t

/-- Opcode fetch (40_dispatch_and_halt.md R82): for `pc` in 0..255 the first byte fetched is `M[pc]`; for `pc = 256` the step
raises OutOfBoundsMemoryAccess(256), and the record has `pc = 256` and no opcode. That `pc` may hold 256 and that the fetch
there faults is the spec's own decision D5 (log 10, DESIGN CHOICE), that 256 is not address 0 is D4 (log 19, DESIGN CHOICE),
and the record's fields are D19 (log 7, DESIGN CHOICE). -/
def Obligations.OpcodeFetchIsChecked : Prop :=
  (∀ s : State, s.pc < 256 → (fetchWindow s).head? = some (s.mem.read s.pc)) ∧
  (∀ s : State, s.run = .running → s.pc = 256 →
    ∃ t f, step s = .next t ∧ t.run = .halted ∧ t.fault = some f ∧
      f.cause = .outOfBoundsMemoryAccess 256 ∧ f.pc = 256 ∧ f.opcode = none)

/-- A byte that is not mapped halts the machine with InvalidOpcode and that byte, at 255 too, and no operand is fetched
(40_dispatch_and_halt.md R83). That the record says so by two absent operand bytes is the spec's own decision D19 (log 7,
DESIGN CHOICE). -/
def Obligations.UnmappedOpcodeFaults : Prop :=
  ∀ s : State, s.run = .running → s.pc < 256 → (∀ m, opcodeMap m ≠ s.mem.read s.pc) →
    ∃ t f, step s = .next t ∧ t.run = .halted ∧ t.fault = some f ∧
      f.cause = .invalidOpcode (s.mem.read s.pc) ∧ f.a = none ∧ f.b = none

/-- Operand fetch (40_dispatch_and_halt.md R84): exactly the operand bytes are read, at `p + 1` and then `p + 2`, before the
instruction executes; the first that would lie above 255 raises OutOfBoundsMemoryAccess(256); bytes after the instruction
play no part. That 256 is not address 0 is the spec's own decision D4 (log 19, DESIGN CHOICE), and that NOT's ignored byte is
fetched like any other is D23 (log 22, DESIGN CHOICE). -/
def Obligations.OperandFetchIsChecked : Prop :=
  (∀ m : Mnemonic, OperandFetchFaults m) ∧
  (∀ (m : Mnemonic) (s : State), s.run = .running → s.mem.read s.pc = opcodeMap m → s.pc + m.length ≤ 256 →
    step s = exec (instrOf m (s.mem.read (s.pc + 1)) (s.mem.read (s.pc + 2))) s)

/-- A register operand byte is used whole: 0..7 select the register, and the first one above 7 raises
InvalidOperandRegister with that byte before the instruction has any effect, for every instruction (30_encoding.md R62). That
it is the first of two invalid bytes, and that it is always raised, is the spec's own decision D12 and D13 (log 17, DESIGN
CHOICE). -/
def Obligations.InvalidRegisterOperandFaults : Prop :=
  (∀ r : Reg, (regByte r).toNat = r.val ∧ regOperand (regByte r) = .ok r) ∧
  (∀ (i : Instr) (s : State) (b : Byte), i.firstInvalidRegister = some b →
    8 ≤ b.toNat ∧ RaisesBeforeEffect (.invalidOperandRegister b) s (exec i s)) ∧
  (∀ i : Instr, i.firstInvalidRegister = none ↔ i.WellFormed = true)

/-- Every fault is precise, whichever step raises it: only `run` and `fault` are written, and the record names the address
of the faulting instruction and, when there is one, its opcode byte (60_exceptions.md section 4; the extension to every
fault is the spec's own decision D7, log 12; the record's shape is D19, log 7). -/
def Obligations.EveryFaultIsPrecise : Prop :=
  ∀ (s t : State) (f : FaultRecord), step s = .next t → s.fault = none → t.fault = some f →
    t = { s with run := .halted, fault := some f } ∧ f.pc = s.pc ∧
      f.opcode = (if s.pc < 256 then some (s.mem.read s.pc) else none)

/-- A step that ends Halted does so in one of two ways: a HLT was executed and only `run` changed, or a fault was taken and
only `run` and `fault` changed (40_dispatch_and_halt.md sections 2 and 3). That HLT leaves `pc` is the spec's own decision D6
(log 11, DESIGN CHOICE), and that every fault is precise is D7 (log 12, DESIGN CHOICE). -/
def Obligations.HaltOnlyByHltOrFault : Prop :=
  ∀ s t : State, step s = .next t → t.run = .halted →
    (s.pc < 256 ∧ s.mem.read s.pc = opcodeMap .hlt ∧ t = { s with run := .halted }) ∨
    (∃ f, t = { s with run := .halted, fault := some f })

/-- The only address an OutOfBoundsMemoryAccess reports is 256 (60_exceptions.md section 2, derived there from R52; CALL at
254 is the spec's own decision D10, log 15). -/
def Obligations.OutOfBoundsAddressIsAlways256 : Prop :=
  ∀ (s t : State) (f : FaultRecord) (x : Nat), StateInv s → step s = .next t → s.fault = none →
    t.fault = some f → f.cause = .outOfBoundsMemoryAccess x → x = 256

/-- Sequential advance (R87): an instruction that is not owns-pc and is not HLT, executed without a fault, leaves `pc` at
`p + 2` or `p + 3`, not reduced modulo 256; for the owns-pc instructions and HLT part 5 of the step does nothing. That `pc`
may hold 256 is the spec's own decision D5 (log 10, DESIGN CHOICE), and that HLT gets no advance is D6 (log 11, DESIGN
CHOICE). -/
def Obligations.SequentialAdvance : Prop :=
  (∀ (i : Instr) (s t : State), exec i s = .next t → s.fault = none → t.fault = none →
    i.mnemonic ∉ [.hlt, .jeq, .jne, .jmp, .call, .ret] →
    t.pc = s.pc + (if i.mnemonic ∈ [.prn, .pra, .push, .pop] then 2 else 3)) ∧
  (∀ (i : Instr) (s : State), i.mnemonic ∈ [.hlt, .jeq, .jne, .jmp, .call, .ret] → advance i s = s)

/-! ### Invariants, reset and load -/

/-- Every step keeps the invariants of 10_state.md R37. -/
def Obligations.StepKeepsTheInvariant : Prop :=
  ∀ s t : State, StateInv s → step s = .next t → StateInv t

/-- The reset state has the invariants. -/
def Obligations.ResetHasTheInvariant : Prop := StateInv State.reset

/-- The launch state of every image that is not refused has the invariants of 10_state.md R37, and is Running with no fault
(70_reset_and_hazards.md R182, R183). What the launch state is, that it is Running, and that it has no fault record are the
spec's own decisions D16, D18 and D19 (logs 9, 6 and 7, DESIGN CHOICE). -/
def Obligations.LaunchStateHasTheInvariant : Prop :=
  ∀ (image : List Byte) (s : State), load image = some s → StateInv s ∧ s.run = .running ∧ s.fault = none

/-- The values of reset (10_state.md section 8): registers other than the stack pointer 0, `pc` 0, flags false, memory 0.
The stack pointer's value is the model's (log 3, PRESUMED) and only its range is stated; Running, no fault record and an
empty trace are the spec's own decisions (logs 6, 7, 8). -/
def Obligations.ResetValues : Prop :=
  (∀ r : Reg, r ≠ spIndex → readReg State.reset r = 0) ∧
  1 ≤ (spValue State.reset).toNat ∧
  State.reset.pc = 0 ∧
  State.reset.flagE = false ∧ State.reset.flagL = false ∧ State.reset.flagG = false ∧
  (∀ a, State.reset.mem.read a = 0) ∧
  State.reset.run = .running ∧ State.reset.fault = none ∧ State.reset.out = []

/-- Loading puts the image at address 0 upward over the reset state, leaves every other cell 0, and touches nothing else;
an image of more than 256 bytes is refused (70_reset_and_hazards.md section 1; refusing is the spec's own decision D16,
log 9). -/
def Obligations.LoadPlacesTheImage : Prop :=
  ∀ image : List Byte,
    (256 < image.length → load image = none) ∧
    (image.length ≤ 256 → ∃ m, load image = some { State.reset with mem := m } ∧
      ∀ a, m.read a = (image[a]?).getD 0)

/-- Exactly one flag is set after CMP, and from then on after every step (10_state.md section 4). -/
def Obligations.ExactlyOneFlagOnceCompared : Prop :=
  (∀ (r q : Reg) (s t : State), exec (.cmp (regByte r) (regByte q)) s = .next t → ExactlyOneFlag t) ∧
  (∀ s t : State, ExactlyOneFlag s → step s = .next t → ExactlyOneFlag t)

/-- The flags are written only by CMP, which writes all three at once; no other instruction, no fault and no halt changes
any of them (R27). -/
def Obligations.OnlyCmpWritesFlags : Prop :=
  ∀ s t : State, step s = .next t →
    SameFlags s t ∨
    ∃ (r q : Reg) (rest : List Byte),
      decode (fetchWindow s) = .ok (.cmp (regByte r) (regByte q), rest) ∧
      t.flagE = decide ((readReg s r).toNat = (readReg s q).toNat) ∧
      t.flagL = decide ((readReg s r).toNat < (readReg s q).toNat) ∧
      t.flagG = decide ((readReg s q).toNat < (readReg s r).toNat)

/-- The trace only grows, by at most one event, and only a PRN or a PRA that executes appends one: its kind and its
register's value (42_output.md section on R112; the typed event is the spec's own decision D15, log 8). -/
def Obligations.OnlyPrnAndPraEmit : Prop :=
  ∀ s t : State, step s = .next t →
    t.out = s.out ∨
    ∃ (r : Reg) (rest : List Byte),
      (decode (fetchWindow s) = .ok (.prn (regByte r), rest) ∧ t.out = s.out ++ [.dec (readReg s r)]) ∨
      (decode (fetchWindow s) = .ok (.pra (regByte r), rest) ∧ t.out = s.out ++ [.chr (readReg s r)])

/-! ### Memory and registers -/

/-- The checked write (20_memory.md R42): above 255 it raises OutOfBoundsMemoryAccess with that address; otherwise the cell
becomes the byte, no other cell changes and nothing else of the state. That the check is made on the un-narrowed address is
the spec's own decision D4 (log 19, DESIGN CHOICE). -/
def Obligations.CheckedWriteChangesOneCell : Prop :=
  ∀ (s : State) (addr : Nat) (v : Byte),
    (255 < addr → memWrite s addr v = .error (.outOfBoundsMemoryAccess addr)) ∧
    (addr ≤ 255 → ∃ m, memWrite s addr v = .ok { s with mem := m } ∧
      ∀ x, m.read x = if x = addr then v else s.mem.read x)

/-- Memory is held in one form: two memories in the canonical form that read alike are equal data, so that comparing two
states compares their 256 cells. (How memory is held is the model's own, log 27.) -/
def Obligations.CanonicalMemory : Prop :=
  ∀ m n : Memory, m.wf = true → n.wf = true → (∀ a, a < 256 → m.read a = n.read a) → m = n

/-- A register reads back what was written, every other register is untouched, and the stack pointer is the register of
index SP_INDEX (10_state.md section 2). -/
def Obligations.RegisterFileReadsBack : Prop :=
  (∀ (s : State) (r q : Reg) (v : Byte),
    readReg (writeReg s r v) q = if q = r then v else readReg s q) ∧
  (∀ s : State, spValue s = readReg s spIndex)

/-! ### LDI, ST, PRN, PRA, HLT -/

/-- LDI (R100): `x[a] <- b`, the immediate whole; `pc <- p + 3`; nothing else. Its faults: the operand fetch past 255, and
a register byte above 7. -/
def Obligations.LdiLoadsTheImmediate : Prop :=
  (∀ (r : Reg) (b : Byte) (s : State),
    exec (.ldi (regByte r) b) s = .next { writeReg s r b with pc := s.pc + 3 }) ∧
  (∀ (a b : Byte) (s : State), 7 < a.toNat →
    RaisesBeforeEffect (.invalidOperandRegister a) s (exec (.ldi a b) s)) ∧
  OperandFetchFaults .ldi ∧
  (∀ a b : Byte, encode (.ldi a b) = [opcodeMap .ldi, a, b])

/-- ST (R101): `M[x[a]] <- x[b]`; `pc <- p + 3`; nothing else. The data write cannot fault. Its faults: the operand fetch
past 255, and a register byte above 7, the first operand's first. -/
def Obligations.StStoresTheRegister : Prop :=
  (∀ (r q : Reg) (s : State),
    exec (.st (regByte r) (regByte q)) s =
      .next { s with mem := s.mem.write (readReg s r).toNat (readReg s q), pc := s.pc + 3 }) ∧
  (∀ (a b : Byte) (s : State), 7 < a.toNat →
    RaisesBeforeEffect (.invalidOperandRegister a) s (exec (.st a b) s)) ∧
  (∀ (a b : Byte) (s : State), a.toNat ≤ 7 → 7 < b.toNat →
    RaisesBeforeEffect (.invalidOperandRegister b) s (exec (.st a b) s)) ∧
  OperandFetchFaults .st ∧
  (∀ a b : Byte, encode (.st a b) = [opcodeMap .st, a, b])

/-- PRN (R110): the trace gains `Dec(x[a])`; `pc <- p + 2`; nothing else. A register byte above 7 is
a fault and emits nothing. -/
def Obligations.PrnEmitsTheNumber : Prop :=
  (∀ (r : Reg) (s : State),
    exec (.prn (regByte r)) s =
      .next { s with out := s.out ++ [.dec (readReg s r)], pc := s.pc + 2 }) ∧
  (∀ (a : Byte) (s : State), 7 < a.toNat →
    RaisesBeforeEffect (.invalidOperandRegister a) s (exec (.prn a) s)) ∧
  OperandFetchFaults .prn ∧
  (∀ a : Byte, encode (.prn a) = [opcodeMap .prn, a])

/-- PRA: the trace gains `Chr(x[a])`, the value unchanged for every value (what a host shows for it is the host's, D25);
`pc <- p + 2`; nothing else. Its faults are PRN's. -/
def Obligations.PraEmitsTheCode : Prop :=
  (∀ (r : Reg) (s : State),
    exec (.pra (regByte r)) s =
      .next { s with out := s.out ++ [.chr (readReg s r)], pc := s.pc + 2 }) ∧
  (∀ (a : Byte) (s : State), 7 < a.toNat →
    RaisesBeforeEffect (.invalidOperandRegister a) s (exec (.pra a) s)) ∧
  OperandFetchFaults .pra

/-- HLT: `run <- Halted` and nothing else, at every address; `pc` stays on the HLT byte (the spec's own decision D6, log
11). From a state with no fault the halt is clean. -/
def Obligations.HltHaltsCleanly : Prop :=
  ∀ s : State, exec .hlt s = .next { s with run := .halted } ∧
    (s.fault = none → CleanHalt { s with run := .halted })

/-! ### The ALU -/

/-- ADD (R121): `x[a] <- (x[a] + x[b]) mod 256`, no flag, `pc <- p + 3`; for a = b too. -/
def Obligations.AddWrapsModulo256 : Prop :=
  (∀ (r q : Reg) (s : State), ∃ v : Byte,
    v.toNat = ((readReg s r).toNat + (readReg s q).toNat) % 256 ∧
    exec (.add (regByte r) (regByte q)) s = .next { writeReg s r v with pc := s.pc + 3 }) ∧
  (∀ a b : Byte, encode (.add a b) = [opcodeMap .add, a, b])

/-- SUB (R122): `x[a] <- (x[a] - x[b]) mod 256` with the mathematical `mod`, no flag, `pc <- p + 3`. -/
def Obligations.SubWrapsModulo256 : Prop :=
  (∀ (r q : Reg) (s : State), ∃ v : Byte,
    (v.toNat : Int) = (((readReg s r).toNat : Int) - (readReg s q).toNat) % 256 ∧
    exec (.sub (regByte r) (regByte q)) s = .next { writeReg s r v with pc := s.pc + 3 }) ∧
  (∀ a b : Byte, encode (.sub a b) = [opcodeMap .sub, a, b])

/-- MUL (R123): `x[a] <- (x[a] * x[b]) mod 256`, the low byte of the product, no flag, `pc <- p + 3`. -/
def Obligations.MulKeepsTheLowByte : Prop :=
  (∀ (r q : Reg) (s : State), ∃ v : Byte,
    v.toNat = ((readReg s r).toNat * (readReg s q).toNat) % 256 ∧
    exec (.mul (regByte r) (regByte q)) s = .next { writeReg s r v with pc := s.pc + 3 }) ∧
  (∀ a b : Byte, encode (.mul a b) = [opcodeMap .mul, a, b])

/-- MOD: the unsigned remainder when the divisor is not zero (its meaning is the spec's own decision D21, log 18), and
DivisionByZero with the destination unchanged when it is. -/
def Obligations.ModIsTheUnsignedRemainder : Prop :=
  (∀ (r q : Reg) (s : State), (readReg s q).toNat ≠ 0 → ∃ v : Byte,
    v.toNat = (readReg s r).toNat % (readReg s q).toNat ∧
    exec (.mod (regByte r) (regByte q)) s = .next { writeReg s r v with pc := s.pc + 3 }) ∧
  (∀ (r q : Reg) (s : State), (readReg s q).toNat = 0 →
    exec (.mod (regByte r) (regByte q)) s =
      .next (takeFault .divisionByZero (.mod (regByte r) (regByte q)) s))

/-- DivisionByZero is raised by MOD with `x[b] = 0`, which does not change the destination and halts the machine, and by
nothing else (R166). -/
def Obligations.DivisionByZeroBelongsToMod : Prop :=
  (∀ (r q : Reg) (s : State), (readReg s q).toNat = 0 → ∃ t f,
    exec (.mod (regByte r) (regByte q)) s = .next t ∧ t.run = .halted ∧
    t.fault = some f ∧ f.cause = .divisionByZero ∧ ∀ x, readReg t x = readReg s x) ∧
  (∀ (s t : State) (f : FaultRecord), step s = .next t → s.fault = none → t.fault = some f →
    f.cause = .divisionByZero → ∃ (r q : Reg) (rest : List Byte),
      decode (fetchWindow s) = .ok (.mod (regByte r) (regByte q), rest) ∧ (readReg s q).toNat = 0)

/-- AND, OR and XOR (R125, R126, R127): bit by bit over the 8 bits, no flag, `pc <- p + 3`. -/
def Obligations.BitwiseActOnEachBit : Prop :=
  ∀ (r q : Reg) (s : State),
    (∃ v : Byte, (∀ k, k < 8 → v.getLsbD k = ((readReg s r).getLsbD k && (readReg s q).getLsbD k)) ∧
      exec (.and (regByte r) (regByte q)) s = .next { writeReg s r v with pc := s.pc + 3 } ∧
      encode (.and (regByte r) (regByte q)) = [opcodeMap .and, regByte r, regByte q]) ∧
    (∃ v : Byte, (∀ k, k < 8 → v.getLsbD k = ((readReg s r).getLsbD k || (readReg s q).getLsbD k)) ∧
      exec (.or (regByte r) (regByte q)) s = .next { writeReg s r v with pc := s.pc + 3 } ∧
      encode (.or (regByte r) (regByte q)) = [opcodeMap .or, regByte r, regByte q]) ∧
    (∃ v : Byte, (∀ k, k < 8 → v.getLsbD k = ((readReg s r).getLsbD k != (readReg s q).getLsbD k)) ∧
      exec (.xor (regByte r) (regByte q)) s = .next { writeReg s r v with pc := s.pc + 3 } ∧
      encode (.xor (regByte r) (regByte q)) = [opcodeMap .xor, regByte r, regByte q])

/-- NOT: `x[a] <- 255 - x[a]`, the same for every value of the ignored second byte; `pc <- p + 3` (that the byte is fetched
with a checked read is the spec's own decision D23, log 22). -/
def Obligations.NotComplementsAndIgnoresItsSecondByte : Prop :=
  ∀ (r : Reg) (b : Byte) (s : State), ∃ v : Byte,
    v.toNat = 255 - (readReg s r).toNat ∧
    exec (.not (regByte r) b) s = .next { writeReg s r v with pc := s.pc + 3 } ∧
    exec (.not (regByte r) b) s = exec (.not (regByte r) 0) s

/-- SHL and SHR: `(x[a] * 2^x[b]) mod 256` and `x[a] div 2^x[b]`, the amount not reduced, so 8 or more gives 0 (the spec's
own decision D11, log 16). -/
def Obligations.ShiftsUseTheWholeAmount : Prop :=
  ∀ (r q : Reg) (s : State),
    (∃ v : Byte, v.toNat = ((readReg s r).toNat * 2 ^ (readReg s q).toNat) % 256 ∧
      (8 ≤ (readReg s q).toNat → v = 0) ∧
      exec (.shl (regByte r) (regByte q)) s = .next { writeReg s r v with pc := s.pc + 3 }) ∧
    (∃ v : Byte, v.toNat = (readReg s r).toNat / 2 ^ (readReg s q).toNat ∧
      (8 ≤ (readReg s q).toNat → v = 0) ∧
      exec (.shr (regByte r) (regByte q)) s = .next { writeReg s r v with pc := s.pc + 3 })

/-- CMP (R131): the unsigned comparison writes all three flags, exactly one of them true; no register; `pc <- p + 3`. -/
def Obligations.CmpComparesUnsigned : Prop :=
  (∀ (r q : Reg) (s : State), ∃ t : State,
    exec (.cmp (regByte r) (regByte q)) s = .next t ∧
    t = { s with flagE := t.flagE, flagL := t.flagL, flagG := t.flagG, pc := s.pc + 3 } ∧
    (t.flagE = true ↔ (readReg s r).toNat = (readReg s q).toNat) ∧
    (t.flagL = true ↔ (readReg s r).toNat < (readReg s q).toNat) ∧
    (t.flagG = true ↔ (readReg s q).toNat < (readReg s r).toNat) ∧
    ExactlyOneFlag t) ∧
  (∀ a b : Byte, encode (.cmp a b) = [opcodeMap .cmp, a, b])

/-- Identities of the arithmetic that the spec derives (43_alu.md section 6): SUB, XOR and SHR of a register with itself
clear it; NOT twice restores it; ADD then SUB of another register restores it. That SHR clears for every value rests on the
amount not being reduced, the spec's own decision D11 (log 16, DESIGN CHOICE). -/
def Obligations.AluIdentities : Prop :=
  (∀ (r : Reg) (s : State),
    exec (.sub (regByte r) (regByte r)) s = .next { writeReg s r 0 with pc := s.pc + 3 } ∧
    exec (.xor (regByte r) (regByte r)) s = .next { writeReg s r 0 with pc := s.pc + 3 } ∧
    exec (.shr (regByte r) (regByte r)) s = .next { writeReg s r 0 with pc := s.pc + 3 }) ∧
  (∀ (r : Reg) (b c : Byte) (s t : State), exec (.not (regByte r) b) s = .next t →
    exec (.not (regByte r) c) t = .next { s with pc := s.pc + 6 }) ∧
  (∀ (r q : Reg) (s t : State), r ≠ q → exec (.add (regByte r) (regByte q)) s = .next t →
    exec (.sub (regByte r) (regByte q)) t = .next { s with pc := s.pc + 6 })

/-! ### Jumps -/

/-- JEQ (R141): `pc <- x[a]` if E, else `pc <- p + 2`; nothing else; L and G are not consulted. -/
def Obligations.JeqJumpsWhenEqual : Prop :=
  (∀ (r : Reg) (s : State), s.flagE = true →
    exec (.jeq (regByte r)) s = .next { s with pc := (readReg s r).toNat }) ∧
  (∀ (r : Reg) (s : State), s.flagE = false →
    exec (.jeq (regByte r)) s = .next { s with pc := s.pc + 2 }) ∧
  (∀ a : Byte, encode (.jeq a) = [opcodeMap .jeq, a])

/-- JNE (R142): `pc <- x[a]` if not E, else `pc <- p + 2`; nothing else; taken from the reset flags. -/
def Obligations.JneJumpsWhenNotEqual : Prop :=
  (∀ (r : Reg) (s : State), s.flagE = false →
    exec (.jne (regByte r)) s = .next { s with pc := (readReg s r).toNat }) ∧
  (∀ (r : Reg) (s : State), s.flagE = true →
    exec (.jne (regByte r)) s = .next { s with pc := s.pc + 2 }) ∧
  (∀ a : Byte, encode (.jne a) = [opcodeMap .jne, a])

/-- JMP (R143): `pc <- x[a]`, nothing else; an invalid register number is a fault, and `pc` stays. -/
def Obligations.JmpJumps : Prop :=
  (∀ (r : Reg) (s : State), exec (.jmp (regByte r)) s = .next { s with pc := (readReg s r).toNat }) ∧
  (∀ (a : Byte) (s : State), 7 < a.toNat →
    RaisesBeforeEffect (.invalidOperandRegister a) s (exec (.jmp a) s)) ∧
  (∀ a : Byte, encode (.jmp a) = [opcodeMap .jmp, a])

/-! ### The stack -/

/-- PUSH: with `sp` not 0, `sp` goes down by one and the register's value, read after that, is written at the new `sp`;
`pc <- p + 2`. With `sp = 0` it takes StackUnderflow and nothing is written. Pushing the stack pointer itself pushes the
decremented value (the spec's own decision D9, log 14; the fault's name is D8, log 13). -/
def Obligations.PushWritesBelowTheStackPointer : Prop :=
  (∀ (r : Reg) (s : State), (spValue s).toNat ≠ 0 → ∃ v : Byte,
    v.toNat = (spValue s).toNat - 1 ∧
    exec (.push (regByte r)) s = .next { writeReg s spIndex v with
      mem := s.mem.write ((spValue s).toNat - 1) (if r = spIndex then v else readReg s r)
      pc := s.pc + 2 }) ∧
  (∀ (r : Reg) (s : State), (spValue s).toNat = 0 →
    exec (.push (regByte r)) s = .next (takeFault .stackUnderflow (.push (regByte r)) s))

/-- POP: the byte at `sp` goes to the register and `sp` goes up by one; `pc <- p + 2`. Into the stack pointer itself the
loaded value is incremented (the spec's own decision D9, log 14). Where the new `sp` would be 256 it takes StackOverflow
and nothing is written (the fault's name is D8, log 13). -/
def Obligations.PopReadsAtTheStackPointer : Prop :=
  (∀ (r : Reg) (s : State), r ≠ spIndex → (spValue s).toNat ≠ 255 → ∃ v : Byte,
    v.toNat = (spValue s).toNat + 1 ∧
    exec (.pop (regByte r)) s = .next { writeReg (writeReg s r (s.mem.read (spValue s).toNat)) spIndex v with
      pc := s.pc + 2 }) ∧
  (∀ (r : Reg) (s : State), r ≠ spIndex → (spValue s).toNat = 255 →
    exec (.pop (regByte r)) s = .next (takeFault .stackOverflow (.pop (regByte r)) s)) ∧
  (∀ s : State, (s.mem.read (spValue s).toNat).toNat ≠ 255 → ∃ v : Byte,
    v.toNat = (s.mem.read (spValue s).toNat).toNat + 1 ∧
    exec (.pop (regByte spIndex)) s = .next { writeReg s spIndex v with pc := s.pc + 2 }) ∧
  (∀ s : State, (s.mem.read (spValue s).toNat).toNat = 255 →
    exec (.pop (regByte spIndex)) s = .next (takeFault .stackOverflow (.pop (regByte spIndex)) s))

/-- CALL: the return address `p + 2` is pushed and `pc` goes to the register's value, read after `sp` has moved (D9, log
14). At `p = 254` the return address is no address: OutOfBoundsMemoryAccess, tested before the stack (the spec's own
decision D10, log 15); with `sp = 0` StackUnderflow; in both nothing is written. -/
def Obligations.CallPushesTheReturnAddress : Prop :=
  (∀ (r : Reg) (s : State), s.pc ≤ 253 → (spValue s).toNat ≠ 0 → ∃ v w : Byte,
    v.toNat = (spValue s).toNat - 1 ∧ w.toNat = s.pc + 2 ∧
    exec (.call (regByte r)) s = .next { writeReg s spIndex v with
      mem := s.mem.write ((spValue s).toNat - 1) w
      pc := (if r = spIndex then v else readReg s r).toNat }) ∧
  (∀ (r : Reg) (s : State), 254 ≤ s.pc →
    exec (.call (regByte r)) s =
      .next (takeFault (.outOfBoundsMemoryAccess (s.pc + 2)) (.call (regByte r)) s)) ∧
  (∀ (r : Reg) (s : State), s.pc ≤ 253 → (spValue s).toNat = 0 →
    exec (.call (regByte r)) s = .next (takeFault .stackUnderflow (.call (regByte r)) s))

/-- RET (R154): `pc` becomes the byte at `sp` and `sp` goes up by one; with `sp = 255` it takes StackOverflow and nothing
is written. -/
def Obligations.RetPopsThePc : Prop :=
  (∀ s : State, (spValue s).toNat ≠ 255 → ∃ v : Byte,
    v.toNat = (spValue s).toNat + 1 ∧
    exec .ret s = .next { writeReg s spIndex v with pc := (s.mem.read (spValue s).toNat).toNat }) ∧
  (∀ s : State, (spValue s).toNat = 255 → exec .ret s = .next (takeFault .stackOverflow .ret s)) ∧
  encode .ret = [opcodeMap .ret]

/-- PUSH then POP of the same register restores every register and changes memory only at the address below the old stack
pointer, where for a register other than the stack pointer the pushed value stays (45_stack_call.md section 3, law 1). That
the stack pointer itself is restored too rests on the spec's own decision D9 (log 14, DESIGN CHOICE). -/
def Obligations.PushThenPopRestoresRegisters : Prop :=
  ∀ (r : Reg) (s : State), 1 ≤ (spValue s).toNat →
    ∃ t u : State, exec (.push (regByte r)) s = .next t ∧ exec (.pop (regByte r)) t = .next u ∧
      u.regs = s.regs ∧ u.pc = s.pc + 4 ∧ SameFlags s u ∧ u.out = s.out ∧
      u.run = s.run ∧ u.fault = s.fault ∧
      SameMemoryExcept ((spValue s).toNat - 1) s u ∧
      (r ≠ spIndex → u.mem.read ((spValue s).toNat - 1) = readReg s r)

/-- CALL then RET: if the code between leaves `sp` and the cell at it as the CALL left them, the RET goes to exactly the
instruction after the CALL, and `sp` has its value from before (45_stack_call.md section 3, law 3). -/
def Obligations.CallThenRetReturns : Prop :=
  ∀ (r : Reg) (s : State), s.pc ≤ 253 → 1 ≤ (spValue s).toNat →
    ∃ t : State, exec (.call (regByte r)) s = .next t ∧
      ∀ u : State, spValue u = spValue t →
        u.mem.read (spValue u).toNat = t.mem.read (spValue t).toNat →
        ∃ w : State, exec .ret u = .next w ∧ w.pc = s.pc + 2 ∧ spValue w = spValue s

/-! ### Frames -/

/-- The register-writing instructions (LDI, NOT, ADD, SUB, MUL, MOD, AND, OR, XOR, SHL, SHR): every register but the first
operand's, every flag, every byte of memory and the trace are unchanged; `run` and `fault` change only by a fault. -/
def Obligations.RegisterResultFrame : Prop :=
  ∀ (i : Instr) (s t : State),
    i.mnemonic ∈ [.ldi, .not, .add, .sub, .mul, .mod, .and, .or, .xor, .shl, .shr] →
    exec i s = .next t →
    (∀ q : Reg, i.operands[0]? ≠ some (regByte q) → readReg t q = readReg s q) ∧
    SameFlags s t ∧ SameMemory s t ∧ t.out = s.out ∧ SameRunOrFaulted s t

/-- The instructions that write no register and no memory (CMP, PRN, PRA, JEQ, JNE, JMP, HLT): every register and every byte
of memory is unchanged; the flags but for CMP; the trace but for PRN and PRA; `run` and `fault` but for HLT (which keeps
`fault`) and a fault. -/
def Obligations.NonWritingFrame : Prop :=
  ∀ (i : Instr) (s t : State), i.mnemonic ∈ [.cmp, .prn, .pra, .jeq, .jne, .jmp, .hlt] →
    exec i s = .next t →
    SameRegsExcept [] s t ∧ SameMemory s t ∧
    (i.mnemonic ≠ .cmp → SameFlags s t) ∧
    (i.mnemonic ≠ .prn → i.mnemonic ≠ .pra → t.out = s.out) ∧
    (i.mnemonic ≠ .hlt → SameRunOrFaulted s t) ∧
    (i.mnemonic = .hlt → t.fault = s.fault)

/-- ST: every register, every flag and the trace are unchanged, and every byte of memory outside the address in the first
operand's register; nothing is stored where an operand names no register or a fault was taken. -/
def Obligations.StFrame : Prop :=
  ∀ (a b : Byte) (s t : State), exec (.st a b) s = .next t →
    SameRegsExcept [] s t ∧ SameFlags s t ∧ t.out = s.out ∧ SameRunOrFaulted s t ∧
    (∀ r, regOperand a = .ok r → SameMemoryExcept (readReg s r).toNat s t) ∧
    (∀ c, regOperand a = .error c ∨ regOperand b = .error c → SameMemory s t) ∧
    (t.fault ≠ s.fault → SameMemory s t)

/-- PUSH and CALL: every register but the stack pointer, every flag and the trace are unchanged, and every byte of memory
outside the address the moved stack pointer holds; nothing is stored where the stack pointer cannot move or a fault was
taken. -/
def Obligations.PushCallFrame : Prop :=
  ∀ (i : Instr) (s t : State), i.mnemonic ∈ [.push, .call] → exec i s = .next t →
    SameRegsExcept [spIndex] s t ∧ SameFlags s t ∧ t.out = s.out ∧ SameRunOrFaulted s t ∧
    (∀ s1, moveSp s ((spValue s).toNat - 1) = .ok s1 → SameMemoryExcept (spValue s1).toNat s t) ∧
    (∀ c, moveSp s ((spValue s).toNat - 1) = .error c → SameMemory s t) ∧
    (t.fault ≠ s.fault → SameMemory s t)

/-- POP and RET: every register but the stack pointer and POP's destination, every flag, every byte of memory and the trace
are unchanged. -/
def Obligations.PopRetFrame : Prop :=
  ∀ (i : Instr) (s t : State), i.mnemonic ∈ [.pop, .ret] → exec i s = .next t →
    (∀ q : Reg, q ≠ spIndex → i.operands[0]? ≠ some (regByte q) → readReg t q = readReg s q) ∧
    SameFlags s t ∧ SameMemory s t ∧ t.out = s.out ∧ SameRunOrFaulted s t

/-! ### The machine for any parameters -/

/-- For every OPCODE_MAP, SP_INDEX and SP_INIT: the reset state and every launch state (70_reset_and_hazards.md section 1) have
the invariants of 10_state.md R37, every launch state is Running with no fault, and every step keeps the invariants. What the
launch state is, that it is Running, and that it has no fault record are the spec's own decisions D16, D18 and D19 (logs 9, 6
and 7, DESIGN CHOICE). -/
def Obligations.EveryConfigurationKeepsTheInvariant : Prop :=
  ∀ P : Params,
    StateInv (resetWith P) ∧
    (∀ (image : List Byte) (s : State), loadWith P image = some s →
      StateInv s ∧ s.run = .running ∧ s.fault = none) ∧
    (∀ s t : State, StateInv s → stepWith P s = .next t → StateInv t)

/-- For every OPCODE_MAP: where the bytes at `pc` are an instruction's encoding under that map, the step of a Running machine
executes that instruction; a byte the map does not use raises InvalidOpcode with it (30_encoding.md R65, R74;
40_dispatch_and_halt.md R81, R83). -/
def Obligations.EveryConfigurationRunsItsOwnOpcodes : Prop :=
  ∀ P : Params,
    (∀ (i : Instr) (s : State), s.run = .running → s.pc + i.mnemonic.length ≤ 256 →
      (∀ k b, (encodeWith P.opcodeMap i)[k]? = some b → s.mem.read (s.pc + k) = b) →
      stepWith P s = execWith P i s) ∧
    (∀ s : State, s.run = .running → s.pc < 256 → (∀ m, P.opcodeMap m ≠ s.mem.read s.pc) →
      RaisesFault (.invalidOpcode (s.mem.read s.pc)) (stepWith P s))

/-- An instruction does the same under every OPCODE_MAP, but for the opcode byte in the record of a fault; and under every
SP_INDEX, but for PUSH, POP, CALL and RET (93_implementation_defined.md U1, 10_state.md R24, R38). `exec` is the instruction
under the defaults. -/
def Obligations.EveryOpcodeMapGivesTheSameMeaning : Prop :=
  ∀ (P : Params) (i : Instr) (s : State),
    (i.mnemonic ∈ [.push, .pop, .call, .ret] → P.spIndex = spIndex) →
    ∃ t u, exec i s = .next t ∧ execWith P i s = .next u ∧
      (t = u ∨ ∃ c, t = takeFault c i s ∧ u = takeFaultWith P.opcodeMap c i s)

/-- For every SP_INDEX and SP_INIT: reset puts SP_INIT into the register of that index and 0 into the others, and PUSH, POP,
CALL and RET move that register and use it as the address (10_state.md R24, R36; 45_stack_call.md section 2). The form of an
operand that is the stack pointer is the spec's own decision D9 (log 14), and the bounds are stated in every form (D8, D10,
logs 13 and 15). -/
def Obligations.StackUsesTheConfiguredRegister : Prop :=
  ∀ P : Params,
    (∀ r : Reg, readReg (resetWith P) r = if r = P.spIndex then P.spInit else 0) ∧
    (∀ (r : Reg) (v : Byte) (s : State), v.toNat + 1 = (readReg s P.spIndex).toNat →
      execWith P (.push (regByte r)) s = .next { writeReg s P.spIndex v with
        mem := s.mem.write v.toNat (if r = P.spIndex then v else readReg s r)
        pc := s.pc + 2 }) ∧
    (∀ (r : Reg) (s : State), (readReg s P.spIndex).toNat = 0 →
      execWith P (.push (regByte r)) s =
        .next (takeFaultWith P.opcodeMap .stackUnderflow (.push (regByte r)) s)) ∧
    (∀ (r : Reg) (v w : Byte) (s : State), w = s.mem.read (readReg s P.spIndex).toNat →
      v.toNat = (if r = P.spIndex then w else readReg s P.spIndex).toNat + 1 →
      execWith P (.pop (regByte r)) s = .next { writeReg (writeReg s r w) P.spIndex v with pc := s.pc + 2 }) ∧
    (∀ (r : Reg) (w : Byte) (s : State), w = s.mem.read (readReg s P.spIndex).toNat →
      (if r = P.spIndex then w else readReg s P.spIndex).toNat = 255 →
      execWith P (.pop (regByte r)) s =
        .next (takeFaultWith P.opcodeMap .stackOverflow (.pop (regByte r)) s)) ∧
    (∀ (r : Reg) (v w : Byte) (s : State), v.toNat + 1 = (readReg s P.spIndex).toNat → w.toNat = s.pc + 2 →
      execWith P (.call (regByte r)) s = .next { writeReg s P.spIndex v with
        mem := s.mem.write v.toNat w
        pc := (if r = P.spIndex then v else readReg s r).toNat }) ∧
    (∀ (r : Reg) (s : State), s.pc = 254 →
      execWith P (.call (regByte r)) s =
        .next (takeFaultWith P.opcodeMap (.outOfBoundsMemoryAccess 256) (.call (regByte r)) s)) ∧
    (∀ (r : Reg) (s : State), s.pc ≤ 253 → (readReg s P.spIndex).toNat = 0 →
      execWith P (.call (regByte r)) s =
        .next (takeFaultWith P.opcodeMap .stackUnderflow (.call (regByte r)) s)) ∧
    (∀ (v : Byte) (s : State), v.toNat = (readReg s P.spIndex).toNat + 1 →
      execWith P .ret s = .next { writeReg s P.spIndex v with
        pc := (s.mem.read (readReg s P.spIndex).toNat).toNat }) ∧
    (∀ s : State, (readReg s P.spIndex).toNat = 255 →
      execWith P .ret s = .next (takeFaultWith P.opcodeMap .stackOverflow .ret s))
end

