-- ==== Sys2Proof/Laws/Decode.lean ====
section
/-! SUPPORT. The laws of descriptor resolution, of the instruction's shape and of the fetch window. -/

namespace Sys2Proof

theorem allMnemonics_complete (m : Mnemonic) : m ∈ allMnemonics := by cases m <;> decide

/-- A byte that resolves is the map's byte of the mnemonic it resolves to. -/
theorem lookupOpcode_sound {om : OpcodeMap} {op : Byte} {m : Mnemonic} (h : lookupOpcode om op = some m) :
    om m = op := by
  simpa using List.find?_some h

/-- Under a legal map the byte of a mnemonic resolves to it. -/
theorem lookupOpcode_complete {om : OpcodeMap} (h : om.Legal) (m : Mnemonic) : lookupOpcode om (om m) = some m := by
  cases e : lookupOpcode om (om m) with
  | some n => exact congrArg some (h n m (lookupOpcode_sound e))
  | none => exact absurd (List.find?_eq_none.mp e m (allMnemonics_complete m)) (by simp)

/-- A byte resolves to nothing exactly when no mnemonic is mapped to it. -/
theorem lookupOpcode_none {om : OpcodeMap} {op : Byte} : lookupOpcode om op = none ↔ ∀ m, om m ≠ op := by
  constructor
  · intro h m e
    exact absurd (List.find?_eq_none.mp h m (allMnemonics_complete m)) (by simp [e])
  · intro h
    exact List.find?_eq_none.mpr (fun m _ => by simpa using h m)

theorem instrOf_mnemonic (m : Mnemonic) (a b : Byte) : (instrOf m a b).mnemonic = m := by cases m <;> rfl

theorem length_pos (m : Mnemonic) : 0 < m.length := by cases m <;> decide

theorem length_le (m : Mnemonic) : m.length ≤ Config.maxLength := by cases m <;> decide

end Sys2Proof

namespace Sys2Proof.Machine

/-- The window of three bytes, where they all exist. -/
theorem readWindow_three (m : Memory) {p : Nat} (h : p + 2 < 256) :
    readWindow m 3 p = [m.read p, m.read (p + 1), m.read (p + 2)] := by
  have h0 : p < 256 := by omega
  have h1 : p + 1 < 256 := by omega
  simp [readWindow, h0, h1, h, Nat.add_assoc]

theorem readWindow_254 (m : Memory) : readWindow m 3 254 = [m.read 254, m.read 255] := by
  simp [readWindow, Config.memSize]

theorem readWindow_255 (m : Memory) : readWindow m 3 255 = [m.read 255] := by
  simp [readWindow, Config.memSize]

theorem readWindow_end (m : Memory) (n : Nat) {p : Nat} (h : 256 ≤ p) : readWindow m n p = [] := by
  cases n with
  | zero => rfl
  | succ n => simp [readWindow, Nat.not_lt.mpr h]

end Sys2Proof.Machine
end

