-- ==== Sys2Proof/Laws/Memory.lean ====
section
/-! SUPPORT. The laws of memory: a write changes the reading of one address, and every operation keeps the canonical form. -/

namespace Sys2Proof.Machine

/-! ### Reading after writing -/

@[simp] theorem Memory.read_nil (a : Nat) : Memory.read [] a = Memory.unlisted := rfl

theorem Memory.read_cons (c : Host.Cell) (m : Memory) (a : Nat) :
    Memory.read (c :: m) a = if c.1 = a then c.2 else Memory.read m a := rfl

theorem Memory.read_erase (m : Memory) (a x : Nat) :
    (Memory.erase m a).read x = if x = a then Memory.unlisted else m.read x := by
  induction m with
  | nil => simp [Memory.erase]
  | cons c m ih =>
    unfold Memory.erase at ih ⊢
    by_cases hc : c.1 = a
    · rw [List.filter_cons_of_neg (by simp [hc]), ih, Memory.read_cons]
      by_cases hx : x = a
      · simp [hx]
      · simp [hx, hc, Ne.symm hx]
    · rw [List.filter_cons_of_pos (by simp [hc]), Memory.read_cons, Memory.read_cons, ih]
      by_cases hx : x = a
      · subst hx; simp [hc]
      · simp [hx]

theorem Memory.read_insert (m : Memory) (a x : Nat) (v : Byte) (h : ∀ c ∈ m, c.1 ≠ a) :
    (Memory.insert m a v).read x = if x = a then v else m.read x := by
  induction m with
  | nil => simp only [Memory.insert, Memory.read_cons, eq_comm (a := a), Memory.read_nil]
  | cons c m ih =>
    have hc : c.1 ≠ a := h c (List.mem_cons_self ..)
    have ih := ih (fun d hd => h d (List.mem_cons_of_mem _ hd))
    unfold Memory.insert
    split
    · simp only [Memory.read_cons, eq_comm (a := a)]
    · rw [Memory.read_cons, Memory.read_cons, ih]
      by_cases hx : x = a
      · subst hx; simp [hc]
      · simp [hx]

theorem Memory.erase_ne (m : Memory) (a : Nat) : ∀ c ∈ Memory.erase m a, c.1 ≠ a := by
  intro c hc
  simpa [Memory.erase] using (List.mem_filter.mp hc).2

/-- Everything a write does to what memory reads as, for any listing. -/
@[simp] theorem Memory.read_write (m : Memory) (a x : Nat) (v : Byte) :
    (m.write a v).read x = if x = a then v else m.read x := by
  unfold Memory.write
  split
  · rename_i h; rw [Memory.read_erase, h]
  · rw [Memory.read_insert _ _ _ _ (Memory.erase_ne m a), Memory.read_erase]
    by_cases hx : x = a <;> simp [hx]

/-- What memory reads as after bytes are stored at ascending addresses. -/
theorem Memory.read_storeBytes (vs : List Byte) : ∀ (m : Memory) (a x : Nat),
    (Memory.storeBytes m a vs).read x =
      if a ≤ x ∧ x < a + vs.length ∧ x < Config.memSize then vs[x - a]?.getD Memory.unlisted else m.read x := by
  induction vs with
  | nil => intro m a x; simp [Memory.storeBytes]; omega
  | cons v vs ih =>
    intro m a x
    rw [Memory.storeBytes, ih]
    by_cases hx : x = a
    · subst hx
      by_cases hm : x < Config.memSize
      · simp [hm]
      · simp [hm]
    · have hr : (if a < Config.memSize then m.write a v else m).read x = m.read x := by
        split <;> simp [hx]
      rw [hr]
      by_cases h : a + 1 ≤ x ∧ x < a + 1 + vs.length ∧ x < Config.memSize
      · have h' : a ≤ x ∧ x < a + (v :: vs).length ∧ x < Config.memSize := by
          simp only [List.length_cons]; omega
        have e : x - a = (x - (a + 1)) + 1 := by omega
        rw [if_pos h, if_pos h', e, List.getElem?_cons_succ]
      · have h' : ¬ (a ≤ x ∧ x < a + (v :: vs).length ∧ x < Config.memSize) := by
          simp only [List.length_cons]; omega
        rw [if_neg h, if_neg h']

/-! ### The canonical form is kept -/

theorem Memory.wf_iff (m : Memory) :
    m.wf = true ↔ List.Pairwise (fun c d : Host.Cell => c.1 < d.1) m ∧
      ∀ c ∈ m, c.1 < Config.memSize ∧ c.2 ≠ Memory.unlisted := by
  simp [Memory.wf, List.all_eq_true]

@[simp] theorem Memory.wf_nil : Memory.wf [] = true := by decide

theorem Memory.wf_erase {m : Memory} (h : m.wf = true) (a : Nat) : (Memory.erase m a).wf = true := by
  rw [Memory.wf_iff] at h ⊢
  exact ⟨h.1.filter _, fun c hc => h.2 c (List.mem_filter.mp hc).1⟩

theorem Memory.mem_insert (m : Memory) (a : Nat) (v : Byte) :
    ∀ c ∈ Memory.insert m a v, c = (a, v) ∨ c ∈ m := by
  induction m with
  | nil => intro c hc; simpa [Memory.insert] using hc
  | cons d m ih =>
    intro c hc
    unfold Memory.insert at hc
    split at hc
    · simpa using hc
    · rcases List.mem_cons.mp hc with rfl | hc
      · simp
      · rcases ih c hc with h | h <;> simp [h]

theorem Memory.wf_insert {m : Memory} (h : m.wf = true) {a : Nat} {v : Byte} (ha : a < Config.memSize)
    (hv : v ≠ Memory.unlisted) (hn : ∀ c ∈ m, c.1 ≠ a) : (Memory.insert m a v).wf = true := by
  rw [Memory.wf_iff] at h ⊢
  refine ⟨?_, fun c hc => ?_⟩
  · induction m with
    | nil => simp [Memory.insert]
    | cons d m ih =>
      obtain ⟨hd, hm⟩ := List.pairwise_cons.mp h.1
      have hda : d.1 ≠ a := hn d (List.mem_cons_self ..)
      unfold Memory.insert
      split
      · rename_i hlt
        refine List.pairwise_cons.mpr ⟨fun c hc => ?_, h.1⟩
        rcases List.mem_cons.mp hc with rfl | hc
        · exact hlt
        · exact Nat.lt_trans hlt (hd c hc)
      · rename_i hlt
        refine List.pairwise_cons.mpr ⟨fun c hc => ?_, ih ⟨hm, fun c hc => h.2 c (List.mem_cons_of_mem _ hc)⟩
          (fun c hc => hn c (List.mem_cons_of_mem _ hc))⟩
        rcases Memory.mem_insert m a v c hc with rfl | hc
        · show d.1 < a
          omega
        · exact hd c hc
  · rcases Memory.mem_insert m a v c hc with rfl | hc
    · exact ⟨ha, hv⟩
    · exact h.2 c hc

/-- A write inside the space keeps the canonical form. -/
theorem Memory.wf_write {m : Memory} (h : m.wf = true) {a : Nat} (ha : a < Config.memSize) (v : Byte) :
    (m.write a v).wf = true := by
  unfold Memory.write
  split
  · exact Memory.wf_erase h a
  · rename_i hv; exact Memory.wf_insert (Memory.wf_erase h a) ha hv (Memory.erase_ne m a)

/-- Storing bytes keeps the canonical form. -/
theorem Memory.wf_storeBytes (vs : List Byte) : ∀ {m : Memory}, m.wf = true → ∀ a : Nat,
    (Memory.storeBytes m a vs).wf = true := by
  induction vs with
  | nil => intro m h a; exact h
  | cons v vs ih =>
    intro m h a
    refine ih ?_ (a + 1)
    split
    · rename_i ha; exact Memory.wf_write h ha v
    · exact h

/-- The reset memory has the canonical form. -/
theorem reset_mem_wf : State.reset.mem.wf = true := Memory.wf_nil

end Sys2Proof.Machine
end

