-- ==== Sys2Proof/Laws/State.lean ====
section
/-! SUPPORT. One lemma for each field of State under each named update, so that no proof unfolds a record update; and reading a
register after a write. -/

namespace Sys2Proof.Machine

/-! ### Reading a register -/

@[simp] theorem readReg_writeReg_self (s : State) (r : Reg) (v : Byte) : readReg (writeReg s r v) r = v := by
  simp [readReg, writeReg]

theorem readReg_writeReg_ne (s : State) {r q : Reg} (v : Byte) (h : q ≠ r) :
    readReg (writeReg s r v) q = readReg s q := by
  have hv : r.val ≠ q.val := fun e => h (Fin.ext e.symm)
  simp [readReg, writeReg, hv]

/-- Two states' registers are equal when every register reads alike. -/
theorem regs_ext {s t : State} (h : ∀ r, readReg s r = readReg t r) : s.regs = t.regs := by
  apply Vector.ext
  intro k hk
  exact h ⟨k, hk⟩

theorem writeReg_self (s : State) (r : Reg) : writeReg s r (readReg s r) = s := by
  simp [writeReg, readReg]

/-! ### writeReg -/

@[simp] theorem writeReg_pc (s : State) (r : Reg) (v : Byte) : (writeReg s r v).pc = s.pc := rfl
@[simp] theorem writeReg_flagE (s : State) (r : Reg) (v : Byte) : (writeReg s r v).flagE = s.flagE := rfl
@[simp] theorem writeReg_flagL (s : State) (r : Reg) (v : Byte) : (writeReg s r v).flagL = s.flagL := rfl
@[simp] theorem writeReg_flagG (s : State) (r : Reg) (v : Byte) : (writeReg s r v).flagG = s.flagG := rfl
@[simp] theorem writeReg_mem (s : State) (r : Reg) (v : Byte) : (writeReg s r v).mem = s.mem := rfl
@[simp] theorem writeReg_run (s : State) (r : Reg) (v : Byte) : (writeReg s r v).run = s.run := rfl
@[simp] theorem writeReg_fault (s : State) (r : Reg) (v : Byte) : (writeReg s r v).fault = s.fault := rfl
@[simp] theorem writeReg_out (s : State) (r : Reg) (v : Byte) : (writeReg s r v).out = s.out := rfl

/-! ### emit -/

@[simp] theorem emit_regs (s : State) (e : Event) : (emit s e).regs = s.regs := rfl
@[simp] theorem emit_pc (s : State) (e : Event) : (emit s e).pc = s.pc := rfl
@[simp] theorem emit_flagE (s : State) (e : Event) : (emit s e).flagE = s.flagE := rfl
@[simp] theorem emit_flagL (s : State) (e : Event) : (emit s e).flagL = s.flagL := rfl
@[simp] theorem emit_flagG (s : State) (e : Event) : (emit s e).flagG = s.flagG := rfl
@[simp] theorem emit_mem (s : State) (e : Event) : (emit s e).mem = s.mem := rfl
@[simp] theorem emit_run (s : State) (e : Event) : (emit s e).run = s.run := rfl
@[simp] theorem emit_fault (s : State) (e : Event) : (emit s e).fault = s.fault := rfl
@[simp] theorem emit_out (s : State) (e : Event) : (emit s e).out = s.out ++ [e] := rfl

/-! ### compareFlags -/

@[simp] theorem compareFlags_regs (x y : Byte) (s : State) : (compareFlags x y s).regs = s.regs := rfl
@[simp] theorem compareFlags_pc (x y : Byte) (s : State) : (compareFlags x y s).pc = s.pc := rfl
@[simp] theorem compareFlags_mem (x y : Byte) (s : State) : (compareFlags x y s).mem = s.mem := rfl
@[simp] theorem compareFlags_run (x y : Byte) (s : State) : (compareFlags x y s).run = s.run := rfl
@[simp] theorem compareFlags_fault (x y : Byte) (s : State) : (compareFlags x y s).fault = s.fault := rfl
@[simp] theorem compareFlags_out (x y : Byte) (s : State) : (compareFlags x y s).out = s.out := rfl

/-! ### jumpIf -/

@[simp] theorem jumpIf_regs (c : Bool) (r : Reg) (s : State) : (jumpIf c r s).regs = s.regs := rfl
@[simp] theorem jumpIf_flagE (c : Bool) (r : Reg) (s : State) : (jumpIf c r s).flagE = s.flagE := rfl
@[simp] theorem jumpIf_flagL (c : Bool) (r : Reg) (s : State) : (jumpIf c r s).flagL = s.flagL := rfl
@[simp] theorem jumpIf_flagG (c : Bool) (r : Reg) (s : State) : (jumpIf c r s).flagG = s.flagG := rfl
@[simp] theorem jumpIf_mem (c : Bool) (r : Reg) (s : State) : (jumpIf c r s).mem = s.mem := rfl
@[simp] theorem jumpIf_run (c : Bool) (r : Reg) (s : State) : (jumpIf c r s).run = s.run := rfl
@[simp] theorem jumpIf_fault (c : Bool) (r : Reg) (s : State) : (jumpIf c r s).fault = s.fault := rfl
@[simp] theorem jumpIf_out (c : Bool) (r : Reg) (s : State) : (jumpIf c r s).out = s.out := rfl

/-! ### haltFaulted and takeFault -/

@[simp] theorem haltFaulted_regs (c : Cause) (op a b : Option Byte) (s : State) :
    (haltFaulted c op a b s).regs = s.regs := rfl
@[simp] theorem haltFaulted_pc (c : Cause) (op a b : Option Byte) (s : State) :
    (haltFaulted c op a b s).pc = s.pc := rfl
@[simp] theorem haltFaulted_flagE (c : Cause) (op a b : Option Byte) (s : State) :
    (haltFaulted c op a b s).flagE = s.flagE := rfl
@[simp] theorem haltFaulted_flagL (c : Cause) (op a b : Option Byte) (s : State) :
    (haltFaulted c op a b s).flagL = s.flagL := rfl
@[simp] theorem haltFaulted_flagG (c : Cause) (op a b : Option Byte) (s : State) :
    (haltFaulted c op a b s).flagG = s.flagG := rfl
@[simp] theorem haltFaulted_mem (c : Cause) (op a b : Option Byte) (s : State) :
    (haltFaulted c op a b s).mem = s.mem := rfl
@[simp] theorem haltFaulted_run (c : Cause) (op a b : Option Byte) (s : State) :
    (haltFaulted c op a b s).run = .halted := rfl
@[simp] theorem haltFaulted_fault (c : Cause) (op a b : Option Byte) (s : State) :
    (haltFaulted c op a b s).fault = some ⟨c, s.pc, op, a, b⟩ := rfl
@[simp] theorem haltFaulted_out (c : Cause) (op a b : Option Byte) (s : State) :
    (haltFaulted c op a b s).out = s.out := rfl

theorem takeFaultWith_eq (om : OpcodeMap) (c : Cause) (i : Instr) (s : State) :
    takeFaultWith om c i s = haltFaulted c (some (om i.mnemonic)) i.operands[0]? i.operands[1]? s := rfl

theorem takeFault_eq (c : Cause) (i : Instr) (s : State) :
    takeFault c i s = haltFaulted c (some (opcodeMap i.mnemonic)) i.operands[0]? i.operands[1]? s := rfl

end Sys2Proof.Machine
end

