-- ==== Sys2Proof/Laws/Ops.lean ====
section
/-! SUPPORT. For each shared operation, one lemma that says everything it can do. -/

namespace Sys2Proof.Machine

/-! ### Sequencing -/

@[simp] theorem ok_bind {α β : Type} (x : α) (f : α → Except Cause β) : (Except.ok x >>= f) = f x := rfl

@[simp] theorem error_bind {α β : Type} (c : Cause) (f : α → Except Cause β) :
    (Except.error c >>= f) = .error c := rfl

@[simp] theorem pure_eq_ok {α : Type} (x : α) : (pure x : Except Cause α) = .ok x := rfl

/-! ### Operands -/

@[simp] theorem regByte_toNat (r : Reg) : (regByte r).toNat = r.val := by
  have := r.isLt
  simp [regByte]
  omega

@[simp] theorem regOperand_regByte (r : Reg) : regOperand (regByte r) = .ok r := by
  have h : (regByte r).toNat < 8 := by simp
  simp [regOperand]

/-- A register operand is one of the eight register bytes, or it is above 7 and raises its fault. -/
theorem regOperand_cases (b : Byte) :
    (∃ r, b = regByte r ∧ regOperand b = .ok r) ∨
      (8 ≤ b.toNat ∧ regOperand b = .error (.invalidOperandRegister b)) := by
  by_cases h : b.toNat < 8
  · refine .inl ⟨⟨b.toNat, h⟩, ?_, by simp [regOperand, h]⟩
    apply BitVec.eq_of_toNat_eq
    simp
  · exact .inr ⟨by omega, by simp [regOperand, h]⟩

theorem regOperand_invalid {b : Byte} (h : 8 ≤ b.toNat) :
    regOperand b = .error (.invalidOperandRegister b) := by
  simp [regOperand, Nat.not_lt.mpr h]

theorem regByte_injective {r q : Reg} (h : regByte r = regByte q) : r = q := by
  have := congrArg BitVec.toNat h
  exact Fin.ext (by simpa using this)

/-! ### Checked memory accesses -/

theorem memRead_cases (s : State) (a : Nat) :
    (a < 256 ∧ memRead s a = .ok (s.mem.read a)) ∨
      (256 ≤ a ∧ memRead s a = .error (.outOfBoundsMemoryAccess a)) := by
  by_cases h : a < 256
  · exact .inl ⟨h, by simp [memRead, h]⟩
  · exact .inr ⟨by omega, by simp [memRead, h]⟩

theorem memWrite_cases (s : State) (a : Nat) (v : Byte) :
    (a < 256 ∧ memWrite s a v = .ok { s with mem := s.mem.write a v }) ∨
      (256 ≤ a ∧ memWrite s a v = .error (.outOfBoundsMemoryAccess a)) := by
  by_cases h : a < 256
  · exact .inl ⟨h, by simp [memWrite, h]⟩
  · exact .inr ⟨by omega, by simp [memWrite, h]⟩

/-- An access whose address is a byte's value cannot fault. -/
@[simp] theorem memRead_byte (s : State) (v : Byte) : memRead s v.toNat = .ok (s.mem.read v.toNat) := by
  have : v.toNat < 256 := v.isLt
  simp [memRead, this]

@[simp] theorem memWrite_byte (s : State) (x v : Byte) :
    memWrite s x.toNat v = .ok { s with mem := s.mem.write x.toNat v } := by
  have : x.toNat < 256 := x.isLt
  simp [memWrite, this]

/-! ### Masking and the stack pointer -/

@[simp] theorem narrow_natCast (n : Nat) : (narrow (n : Int)).toNat = n % 256 := by
  simp only [narrow, BitVec.toNat_ofInt]
  omega

theorem narrow_toInt (v : Int) : ((narrow v).toNat : Int) = v % 256 := by
  simp only [narrow, BitVec.toNat_ofInt]
  omega

/-- Everything the checked movement of the stack pointer can do. -/
theorem moveSpAt_cases (sp : Reg) (s : State) (v : Int) :
    (v < 0 ∧ moveSpAt sp s v = .error .stackUnderflow) ∨
      (255 < v ∧ moveSpAt sp s v = .error .stackOverflow) ∨
      ∃ w : Byte, (w.toNat : Int) = v ∧ moveSpAt sp s v = .ok (writeReg s sp w) := by
  unfold moveSpAt
  by_cases h0 : v < 0
  · exact .inl ⟨h0, by simp [h0]⟩
  · by_cases h1 : 255 < v
    · exact .inr (.inl ⟨h1, by simp [h0, h1]⟩)
    · refine .inr (.inr ⟨narrow v, ?_, by simp [h0, h1]⟩)
      rw [narrow_toInt]
      omega

theorem moveSp_cases (s : State) (v : Int) :
    (v < 0 ∧ moveSp s v = .error .stackUnderflow) ∨
      (255 < v ∧ moveSp s v = .error .stackOverflow) ∨
      ∃ w : Byte, (w.toNat : Int) = v ∧ moveSp s v = .ok (writeReg s spIndex w) :=
  moveSpAt_cases spIndex s v

@[simp] theorem spValue_writeReg_sp (s : State) (v : Byte) : spValue (writeReg s spIndex v) = v := by
  simp [spValue]

/-! ### The end of an instruction -/

/-- `advance` changes nothing but `pc`. -/
theorem advance_eq (i : Instr) (s : State) : advance i s = { s with pc := (advance i s).pc } := by
  unfold advance
  split
  · rfl
  · split <;> rfl

/-- Everything the end of an instruction can be: its own effect, advanced, or a fault taken in the state before. -/
theorem concludeWith_cases (om : OpcodeMap) (i : Instr) (s t : State) (r : Except Cause State)
    (h : concludeWith om i s r = .next t) :
    (∃ u, r = .ok u ∧ t = advance i u) ∨ (∃ c, r = .error c ∧ t = takeFaultWith om c i s) := by
  cases r with
  | ok u => exact .inl ⟨u, rfl, by simpa [concludeWith, eq_comm] using h⟩
  | error c => exact .inr ⟨c, rfl, by simpa [concludeWith, eq_comm] using h⟩

/-- An instruction's end is always a next state. -/
theorem concludeWith_next (om : OpcodeMap) (i : Instr) (s : State) (r : Except Cause State) :
    ∃ t, concludeWith om i s r = .next t := by
  cases r <;> exact ⟨_, rfl⟩

end Sys2Proof.Machine
end

