-- ==== Sys2Proof/Laws/Exec.lean ====
section
/-! SUPPORT. What every instruction can do, said once, for any parameters: `Completes` lists the effect of each instruction whose
operands name registers, `Raises` the faults, and `execWith_cases` says that an instruction does one or the other. `exec` is the
case of the default parameters. -/

namespace Sys2Proof.Machine

/-! ### Register operands -/

/-- Where every register operand is valid, one operand is a register byte. -/
theorem wellFormed_one {i : Instr} {a : Byte} (hi : i.registerOperands = [a]) (h : i.WellFormed = true) :
    ∃ r, a = regByte r := by
  rcases regOperand_cases a with ⟨r, ha, -⟩ | ⟨ha, -⟩
  · exact ⟨r, ha⟩
  · simp [Instr.WellFormed, hi, validRegister] at h
    omega

/-- Where every register operand is valid, both operands are register bytes. -/
theorem wellFormed_two {i : Instr} {a b : Byte} (hi : i.registerOperands = [a, b]) (h : i.WellFormed = true) :
    (∃ r, a = regByte r) ∧ ∃ q, b = regByte q := by
  simp only [Instr.WellFormed, hi, validRegister, List.all_cons, List.all_nil, Bool.and_true, Bool.and_eq_true,
    decide_eq_true_eq] at h
  rcases regOperand_cases a with ⟨r, ha, -⟩ | ⟨ha, -⟩
  · rcases regOperand_cases b with ⟨q, hb, -⟩ | ⟨hb, -⟩
    · exact ⟨⟨r, ha⟩, ⟨q, hb⟩⟩
    · omega
  · omega

theorem validRegister_regByte (r : Reg) : validRegister (regByte r) = true := by
  simp [validRegister]

theorem firstInvalid_one {a b : Byte} (h : [a].find? (fun x => !validRegister x) = some b) :
    8 ≤ a.toNat ∧ a = b := by
  cases ha : validRegister a <;> simp [List.find?, ha] at h
  exact ⟨by simpa [validRegister] using ha, h⟩

theorem firstInvalid_two {a c b : Byte} (h : [a, c].find? (fun x => !validRegister x) = some b) :
    (8 ≤ a.toNat ∧ a = b) ∨ ((∃ r, a = regByte r) ∧ 8 ≤ c.toNat ∧ c = b) := by
  cases ha : validRegister a
  · simp [List.find?, ha] at h
    exact .inl ⟨by simpa [validRegister] using ha, h⟩
  · rw [List.find?_cons_of_neg (by simp [ha])] at h
    refine .inr ⟨?_, firstInvalid_one h⟩
    rcases regOperand_cases a with ⟨r, e, -⟩ | ⟨e, -⟩
    · exact ⟨r, e⟩
    · simp [validRegister] at ha
      omega

/-! ### The default parameters -/

/-- `exec` is the execute part of the machine with the default parameters. -/
theorem exec_eq (i : Instr) (s : State) : exec i s = execWith defaultParams i s := by cases i <;> rfl

/-- `step` is the step of the machine with the default parameters. -/
theorem step_eq (s : State) : step s = stepWith defaultParams s := by
  have : exec = execWith defaultParams := funext fun i => funext fun s => exec_eq i s
  unfold step stepWith
  rw [this]
  rfl

theorem reset_eq : State.reset = resetWith defaultParams := rfl

theorem load_eq : load = loadWith defaultParams := rfl

/-- A value-producing instruction whose operands name registers, in terms of its operation. -/
theorem aluBinary_regs (r q : Reg) (f : Byte → Byte → Except Cause Byte) (s : State) :
    aluBinary (regByte r) (regByte q) f s = (f (readReg s r) (readReg s q)).map (writeReg s r) := by
  simp only [aluBinary, regOperand_regByte, ok_bind]
  cases f (readReg s r) (readReg s q) <;> rfl

/-! ### What an instruction can do -/

/-- The instruction completes from the first state to the second, the stack pointer being register `sp`: its own effect, and
where `pc` goes. -/
inductive Completes (sp : Reg) : Instr → State → State → Prop
  | hlt (s : State) : Completes sp .hlt s { s with run := .halted }
  | ldi (r : Reg) (b : Byte) (s : State) :
      Completes sp (.ldi (regByte r) b) s { writeReg s r b with pc := s.pc + 3 }
  | st (r q : Reg) (s : State) :
      Completes sp (.st (regByte r) (regByte q)) s
        { s with mem := s.mem.write (readReg s r).toNat (readReg s q), pc := s.pc + 3 }
  | prn (r : Reg) (s : State) :
      Completes sp (.prn (regByte r)) s { emit s (.dec (readReg s r)) with pc := s.pc + 2 }
  | pra (r : Reg) (s : State) :
      Completes sp (.pra (regByte r)) s { emit s (.chr (readReg s r)) with pc := s.pc + 2 }
  | add (r q : Reg) (s : State) :
      Completes sp (.add (regByte r) (regByte q)) s
        { writeReg s r (aluAdd (readReg s r) (readReg s q)) with pc := s.pc + 3 }
  | sub (r q : Reg) (s : State) :
      Completes sp (.sub (regByte r) (regByte q)) s
        { writeReg s r (aluSub (readReg s r) (readReg s q)) with pc := s.pc + 3 }
  | mul (r q : Reg) (s : State) :
      Completes sp (.mul (regByte r) (regByte q)) s
        { writeReg s r (aluMul (readReg s r) (readReg s q)) with pc := s.pc + 3 }
  | and (r q : Reg) (s : State) :
      Completes sp (.and (regByte r) (regByte q)) s
        { writeReg s r (aluAnd (readReg s r) (readReg s q)) with pc := s.pc + 3 }
  | or (r q : Reg) (s : State) :
      Completes sp (.or (regByte r) (regByte q)) s
        { writeReg s r (aluOr (readReg s r) (readReg s q)) with pc := s.pc + 3 }
  | xor (r q : Reg) (s : State) :
      Completes sp (.xor (regByte r) (regByte q)) s
        { writeReg s r (aluXor (readReg s r) (readReg s q)) with pc := s.pc + 3 }
  | shl (r q : Reg) (s : State) :
      Completes sp (.shl (regByte r) (regByte q)) s
        { writeReg s r (aluShl (readReg s r) (readReg s q)) with pc := s.pc + 3 }
  | shr (r q : Reg) (s : State) :
      Completes sp (.shr (regByte r) (regByte q)) s
        { writeReg s r (aluShr (readReg s r) (readReg s q)) with pc := s.pc + 3 }
  | mod (r q : Reg) (s : State) (h : (readReg s q).toNat ≠ 0) :
      Completes sp (.mod (regByte r) (regByte q)) s
        { writeReg s r (narrow (((readReg s r).toNat : Int) % (readReg s q).toNat)) with pc := s.pc + 3 }
  | not (r : Reg) (b : Byte) (s : State) :
      Completes sp (.not (regByte r) b) s { writeReg s r (aluNot (readReg s r)) with pc := s.pc + 3 }
  | cmp (r q : Reg) (s : State) :
      Completes sp (.cmp (regByte r) (regByte q)) s
        { compareFlags (readReg s r) (readReg s q) s with pc := s.pc + 3 }
  | jeq (r : Reg) (s : State) : Completes sp (.jeq (regByte r)) s (jumpIf s.flagE r s)
  | jne (r : Reg) (s : State) : Completes sp (.jne (regByte r)) s (jumpIf (!s.flagE) r s)
  | jmp (r : Reg) (s : State) : Completes sp (.jmp (regByte r)) s { s with pc := (readReg s r).toNat }
  | push (r : Reg) (w : Byte) (s : State) (h : w.toNat + 1 = (readReg s sp).toNat) :
      Completes sp (.push (regByte r)) s
        { writeReg s sp w with
          mem := s.mem.write w.toNat (readReg (writeReg s sp w) r)
          pc := s.pc + 2 }
  | pop (r : Reg) (w : Byte) (s : State)
      (h : w.toNat = (readReg (writeReg s r (s.mem.read (readReg s sp).toNat)) sp).toNat + 1) :
      Completes sp (.pop (regByte r)) s
        { writeReg (writeReg s r (s.mem.read (readReg s sp).toNat)) sp w with pc := s.pc + 2 }
  | call (r : Reg) (w ra : Byte) (s : State) (h : w.toNat + 1 = (readReg s sp).toNat)
      (hra : ra.toNat = s.pc + 2) :
      Completes sp (.call (regByte r)) s
        { writeReg s sp w with
          mem := s.mem.write w.toNat ra
          pc := (readReg (writeReg s sp w) r).toNat }
  | ret (w : Byte) (s : State) (h : w.toNat = (readReg s sp).toNat + 1) :
      Completes sp .ret s { writeReg s sp w with pc := (s.mem.read (readReg s sp).toNat).toNat }

/-- The instruction raises this fault in this state, the stack pointer being register `sp`. -/
inductive Raises (sp : Reg) : Instr → State → Cause → Prop
  | register (i : Instr) (b : Byte) (s : State) (h : i.firstInvalidRegister = some b) :
      Raises sp i s (.invalidOperandRegister b)
  | mod (r q : Reg) (s : State) (h : (readReg s q).toNat = 0) :
      Raises sp (.mod (regByte r) (regByte q)) s .divisionByZero
  | push (r : Reg) (s : State) (h : (readReg s sp).toNat = 0) : Raises sp (.push (regByte r)) s .stackUnderflow
  | pop (r : Reg) (s : State)
      (h : (readReg (writeReg s r (s.mem.read (readReg s sp).toNat)) sp).toNat = 255) :
      Raises sp (.pop (regByte r)) s .stackOverflow
  | callBounds (r : Reg) (s : State) (h : 254 ≤ s.pc) :
      Raises sp (.call (regByte r)) s (.outOfBoundsMemoryAccess (s.pc + 2))
  | call (r : Reg) (s : State) (hp : s.pc ≤ 253) (h : (readReg s sp).toNat = 0) :
      Raises sp (.call (regByte r)) s .stackUnderflow
  | ret (s : State) (h : (readReg s sp).toNat = 255) : Raises sp .ret s .stackOverflow

/-! ### Which of them -/

/-- An invalid register operand is the fault of every instruction. -/
theorem effect_invalidRegister (sp : Reg) (i : Instr) (s : State) (b : Byte) (h : i.firstInvalidRegister = some b) :
    effect sp i s = .error (.invalidOperandRegister b) := by
  cases i <;> simp only [Instr.firstInvalidRegister, Instr.registerOperands] at h
  case hlt => simp at h
  case ret => simp at h
  all_goals first
    | (obtain ⟨h1, rfl⟩ := firstInvalid_one h
       simp [effect, ldiEffect, prnEffect, praEffect, notEffect, jeqEffect, jneEffect, jmpEffect, pushEffect,
         popEffect, callEffect, regOperand_invalid h1])
    | (rcases firstInvalid_two h with ⟨h1, rfl⟩ | ⟨⟨r, rfl⟩, h1, rfl⟩ <;>
         simp [effect, stEffect, addEffect, subEffect, mulEffect, modEffect, andEffect, orEffect, xorEffect,
           shlEffect, shrEffect, cmpEffect, aluBinary, regOperand_invalid h1])

/-- How a sequential two-operand instruction advances. -/
theorem advance_three {i : Instr} (h : i.mnemonic.length = 3) (t : State) :
    advance i t = { t with pc := t.pc + 3 } := by
  cases i <;> first | rfl | (simp only [Instr.mnemonic] at h; exact absurd h (by decide))

/-- How a sequential one-operand instruction advances. -/
theorem advance_two {i : Instr} (h : i.mnemonic ∈ [Mnemonic.prn, .pra, .push, .pop]) (t : State) :
    advance i t = { t with pc := t.pc + 2 } := by
  cases i <;> first | rfl | (simp only [Instr.mnemonic] at h; exact absurd h (by decide))

/-- What an instruction's effect, followed by the advance, can be. -/
def EffectCases (sp : Reg) (i : Instr) (s : State) : Prop :=
  (∃ u, effect sp i s = .ok u ∧ Completes sp i s (advance i u)) ∨
    ∃ c, effect sp i s = .error c ∧ Raises sp i s c

/-- PUSH with a valid operand completes or raises its own fault. -/
theorem push_cases (sp r : Reg) (s : State) : EffectCases sp (.push (regByte r)) s := by
  rcases moveSpAt_cases sp s ((readReg s sp).toNat - 1) with ⟨h, e⟩ | ⟨h, e⟩ | ⟨w, h, e⟩
  · exact .inr ⟨_, by simp [effect, pushEffect, e], .push (sp := sp) r s (by omega)⟩
  · have := (readReg s sp).isLt
    omega
  · exact .inl ⟨{ writeReg s sp w with mem := s.mem.write w.toNat (readReg (writeReg s sp w) r) },
      by simp [effect, pushEffect, e], .push r w s (by omega)⟩

/-- POP with a valid operand completes or raises its own fault. -/
theorem pop_cases (sp r : Reg) (s : State) : EffectCases sp (.pop (regByte r)) s := by
  have hb := (readReg (writeReg s r (s.mem.read (readReg s sp).toNat)) sp).isLt
  rcases moveSpAt_cases sp (writeReg s r (s.mem.read (readReg s sp).toNat))
      ((readReg (writeReg s r (s.mem.read (readReg s sp).toNat)) sp).toNat + 1) with ⟨h, e⟩ | ⟨h, e⟩ | ⟨w, h, e⟩
  · omega
  · exact .inr ⟨_, by simp [effect, popEffect, e], .pop (sp := sp) r s (by omega)⟩
  · exact .inl ⟨_, by simp [effect, popEffect, e], .pop (sp := sp) r w s (by omega)⟩

/-- CALL with a valid operand completes or raises a fault of its own. -/
theorem call_cases (sp r : Reg) (s : State) : EffectCases sp (.call (regByte r)) s := by
  by_cases hp : 254 ≤ s.pc
  · have : 255 < s.pc + 2 := by omega
    exact .inr ⟨_, by simp [effect, callEffect, returnAddress, this], .callBounds (sp := sp) r s hp⟩
  · have hn : ¬ 255 < s.pc + 2 := by omega
    rcases moveSpAt_cases sp s ((readReg s sp).toNat - 1) with ⟨h, e⟩ | ⟨h, e⟩ | ⟨w, h, e⟩
    · exact .inr ⟨_, by simp [effect, callEffect, returnAddress, hn, e], .call (sp := sp) r s (by omega) (by omega)⟩
    · have := (readReg s sp).isLt
      omega
    · refine .inl ⟨_, by simp [effect, callEffect, returnAddress, hn, e]; rfl,
        .call (sp := sp) r w (narrow ((s.pc + 2 : Nat) : Int)) s (by omega) ?_⟩
      rw [narrow_natCast]
      omega

/-- RET completes or raises its own fault. -/
theorem ret_cases (sp : Reg) (s : State) : EffectCases sp .ret s := by
  have hb := (readReg s sp).isLt
  rcases moveSpAt_cases sp s ((readReg s sp).toNat + 1) with ⟨h, e⟩ | ⟨h, e⟩ | ⟨w, h, e⟩
  · omega
  · exact .inr ⟨_, by simp [effect, retEffect, e], .ret (sp := sp) s (by omega)⟩
  · exact .inl ⟨_, by simp [effect, retEffect, e], .ret (sp := sp) w s (by omega)⟩

/-- Everything an instruction's effect can be. -/
theorem effect_cases (sp : Reg) (i : Instr) (s : State) : EffectCases sp i s := by
  cases hf : i.firstInvalidRegister with
  | some b => exact .inr ⟨_, effect_invalidRegister sp i s b hf, .register i b s hf⟩
  | none =>
    have hw : i.WellFormed = true := by
      simpa [Instr.firstInvalidRegister, Instr.WellFormed] using hf
    cases i
    case hlt => exact .inl ⟨_, rfl, .hlt s⟩
    case ldi a b =>
      obtain ⟨r, rfl⟩ := wellFormed_one rfl hw
      exact .inl ⟨_, by simp only [effect, ldiEffect, immOperand, regOperand_regByte, ok_bind, pure_eq_ok], .ldi r b s⟩
    case not a b =>
      obtain ⟨r, rfl⟩ := wellFormed_one rfl hw
      exact .inl ⟨_, by simp only [effect, notEffect, regOperand_regByte, ok_bind, pure_eq_ok], .not r b s⟩
    case prn a =>
      obtain ⟨r, rfl⟩ := wellFormed_one rfl hw
      exact .inl ⟨_, by simp only [effect, prnEffect, regOperand_regByte, ok_bind, pure_eq_ok], .prn r s⟩
    case pra a =>
      obtain ⟨r, rfl⟩ := wellFormed_one rfl hw
      exact .inl ⟨_, by simp only [effect, praEffect, regOperand_regByte, ok_bind, pure_eq_ok], .pra r s⟩
    case jeq a =>
      obtain ⟨r, rfl⟩ := wellFormed_one rfl hw
      exact .inl ⟨jumpIf s.flagE r s, by simp [effect, jeqEffect], .jeq r s⟩
    case jne a =>
      obtain ⟨r, rfl⟩ := wellFormed_one rfl hw
      exact .inl ⟨jumpIf (!s.flagE) r s, by simp [effect, jneEffect], .jne r s⟩
    case jmp a =>
      obtain ⟨r, rfl⟩ := wellFormed_one rfl hw
      exact .inl ⟨_, by simp only [effect, jmpEffect, regOperand_regByte, ok_bind, pure_eq_ok], .jmp r s⟩
    case st a b =>
      obtain ⟨⟨r, rfl⟩, q, rfl⟩ := wellFormed_two rfl hw
      exact .inl ⟨_, by simp [effect, stEffect]; rfl, .st r q s⟩
    case cmp a b =>
      obtain ⟨⟨r, rfl⟩, q, rfl⟩ := wellFormed_two rfl hw
      exact .inl ⟨_, by simp only [effect, cmpEffect, regOperand_regByte, ok_bind, pure_eq_ok], .cmp r q s⟩
    case add a b =>
      obtain ⟨⟨r, rfl⟩, q, rfl⟩ := wellFormed_two rfl hw
      exact .inl ⟨_, by simp [effect, addEffect, aluBinary_regs]; rfl, .add r q s⟩
    case sub a b =>
      obtain ⟨⟨r, rfl⟩, q, rfl⟩ := wellFormed_two rfl hw
      exact .inl ⟨_, by simp [effect, subEffect, aluBinary_regs]; rfl, .sub r q s⟩
    case mul a b =>
      obtain ⟨⟨r, rfl⟩, q, rfl⟩ := wellFormed_two rfl hw
      exact .inl ⟨_, by simp [effect, mulEffect, aluBinary_regs]; rfl, .mul r q s⟩
    case and a b =>
      obtain ⟨⟨r, rfl⟩, q, rfl⟩ := wellFormed_two rfl hw
      exact .inl ⟨_, by simp [effect, andEffect, aluBinary_regs]; rfl, .and r q s⟩
    case or a b =>
      obtain ⟨⟨r, rfl⟩, q, rfl⟩ := wellFormed_two rfl hw
      exact .inl ⟨_, by simp [effect, orEffect, aluBinary_regs]; rfl, .or r q s⟩
    case xor a b =>
      obtain ⟨⟨r, rfl⟩, q, rfl⟩ := wellFormed_two rfl hw
      exact .inl ⟨_, by simp [effect, xorEffect, aluBinary_regs]; rfl, .xor r q s⟩
    case shl a b =>
      obtain ⟨⟨r, rfl⟩, q, rfl⟩ := wellFormed_two rfl hw
      exact .inl ⟨_, by simp [effect, shlEffect, aluBinary_regs]; rfl, .shl r q s⟩
    case shr a b =>
      obtain ⟨⟨r, rfl⟩, q, rfl⟩ := wellFormed_two rfl hw
      exact .inl ⟨_, by simp [effect, shrEffect, aluBinary_regs]; rfl, .shr r q s⟩
    case mod a b =>
      obtain ⟨⟨r, rfl⟩, q, rfl⟩ := wellFormed_two rfl hw
      by_cases h : (readReg s q).toNat = 0
      · exact .inr ⟨_, by simp [effect, modEffect, aluBinary_regs, aluMod, h]; rfl, .mod r q s h⟩
      · exact .inl ⟨_, by simp [effect, modEffect, aluBinary_regs, aluMod, h]; rfl, .mod r q s h⟩
    case push a =>
      obtain ⟨r, rfl⟩ := wellFormed_one rfl hw
      exact push_cases sp r s
    case pop a =>
      obtain ⟨r, rfl⟩ := wellFormed_one rfl hw
      exact pop_cases sp r s
    case call a =>
      obtain ⟨r, rfl⟩ := wellFormed_one rfl hw
      exact call_cases sp r s
    case ret => exact ret_cases sp s

/-- Everything an instruction can do, for any parameters: it completes, or it takes a fault. -/
theorem execWith_cases (P : Params) (i : Instr) (s : State) :
    (∃ t, Completes P.spIndex i s t ∧ execWith P i s = .next t) ∨
      ∃ c, Raises P.spIndex i s c ∧ execWith P i s = .next (takeFaultWith P.opcodeMap c i s) := by
  rcases effect_cases P.spIndex i s with ⟨u, e, h⟩ | ⟨c, e, h⟩ <;> unfold execWith <;> rw [e]
  · exact .inl ⟨_, h, rfl⟩
  · exact .inr ⟨_, h, rfl⟩

/-- The two cases of a next state, for any parameters. -/
theorem execWith_next_cases {P : Params} {i : Instr} {s t : State} (h : execWith P i s = .next t) :
    Completes P.spIndex i s t ∨ ∃ c, Raises P.spIndex i s c ∧ t = takeFaultWith P.opcodeMap c i s := by
  rcases execWith_cases P i s with ⟨u, hu, e⟩ | ⟨c, hc, e⟩ <;> rw [e, Host.Outcome.next.injEq] at h <;> subst h
  · exact .inl hu
  · exact .inr ⟨c, hc, rfl⟩

/-- Everything an instruction can do: it completes, or it takes a fault. -/
theorem exec_cases (i : Instr) (s : State) :
    (∃ t, Completes spIndex i s t ∧ exec i s = .next t) ∨
      ∃ c, Raises spIndex i s c ∧ exec i s = .next (takeFault c i s) := by
  rw [exec_eq]
  exact execWith_cases defaultParams i s

/-- The two cases of a next state of `exec`. -/
theorem exec_next_cases {i : Instr} {s t : State} (h : exec i s = .next t) :
    Completes spIndex i s t ∨ ∃ c, Raises spIndex i s c ∧ t = takeFault c i s := by
  rw [exec_eq] at h
  exact execWith_next_cases h

/-- An invalid register operand is the fault of every instruction. -/
theorem exec_invalidRegister (i : Instr) (s : State) (b : Byte) (h : i.firstInvalidRegister = some b) :
    exec i s = .next (takeFault (.invalidOperandRegister b) i s) := by
  rw [exec_eq, execWith, effect_invalidRegister _ i s b h]
  rfl

/-- The fault record after a completed instruction is the one before it. -/
theorem Completes.fault_eq {sp : Reg} {i : Instr} {s t : State} (h : Completes sp i s t) : t.fault = s.fault := by
  cases h <;> rfl

end Sys2Proof.Machine
end

