-- ==== Sys2Proof/Laws/PerInstr.lean ====
section
/-! SUPPORT. Statements for all instructions, one lemma for each constructor. -/

namespace Sys2Proof.Laws.Shape

/-- The instruction is the one its mnemonic and operand bytes make, it has as many operand bytes as its descriptor says,
and its register operands are those of kind `reg` (30_encoding.md R64). -/
def Statement (i : Instr) : Prop :=
  instrOf i.mnemonic (i.operands[0]?.getD 0) (i.operands[1]?.getD 0) = i ∧
    i.operands.length = (descriptor i.mnemonic).operandCount ∧
    i.registerOperands =
      (((descriptor i.mnemonic).operands.zip i.operands).filter (fun p => p.1 == .reg)).map Prod.snd

theorem hlt : Statement .hlt := ⟨rfl, rfl, rfl⟩
theorem ldi (a b : Byte) : Statement (.ldi a b) := ⟨rfl, rfl, rfl⟩
theorem st (a b : Byte) : Statement (.st a b) := ⟨rfl, rfl, rfl⟩
theorem prn (a : Byte) : Statement (.prn a) := ⟨rfl, rfl, rfl⟩
theorem pra (a : Byte) : Statement (.pra a) := ⟨rfl, rfl, rfl⟩
theorem add (a b : Byte) : Statement (.add a b) := ⟨rfl, rfl, rfl⟩
theorem sub (a b : Byte) : Statement (.sub a b) := ⟨rfl, rfl, rfl⟩
theorem mul (a b : Byte) : Statement (.mul a b) := ⟨rfl, rfl, rfl⟩
theorem and (a b : Byte) : Statement (.and a b) := ⟨rfl, rfl, rfl⟩
theorem or (a b : Byte) : Statement (.or a b) := ⟨rfl, rfl, rfl⟩
theorem xor (a b : Byte) : Statement (.xor a b) := ⟨rfl, rfl, rfl⟩
theorem shl (a b : Byte) : Statement (.shl a b) := ⟨rfl, rfl, rfl⟩
theorem shr (a b : Byte) : Statement (.shr a b) := ⟨rfl, rfl, rfl⟩
theorem mod (a b : Byte) : Statement (.mod a b) := ⟨rfl, rfl, rfl⟩
theorem not (a b : Byte) : Statement (.not a b) := ⟨rfl, rfl, rfl⟩
theorem cmp (a b : Byte) : Statement (.cmp a b) := ⟨rfl, rfl, rfl⟩
theorem jeq (a : Byte) : Statement (.jeq a) := ⟨rfl, rfl, rfl⟩
theorem jne (a : Byte) : Statement (.jne a) := ⟨rfl, rfl, rfl⟩
theorem jmp (a : Byte) : Statement (.jmp a) := ⟨rfl, rfl, rfl⟩
theorem push (a : Byte) : Statement (.push a) := ⟨rfl, rfl, rfl⟩
theorem pop (a : Byte) : Statement (.pop a) := ⟨rfl, rfl, rfl⟩
theorem call (a : Byte) : Statement (.call a) := ⟨rfl, rfl, rfl⟩
theorem ret : Statement .ret := ⟨rfl, rfl, rfl⟩

end Sys2Proof.Laws.Shape
end

