-- ==== Sys2Proof/Machine/Run.lean ====
section
/-! DEFINITION. Runs and their end (40_dispatch_and_halt.md R91, R92): the states of a run, and the executor that runs a machine
under fuel. The machine itself has no step limit; the fuel is the executor's, and running out of it is no state of the
machine. -/

namespace Sys2Proof.Machine

/-- The state after `k` steps of the run that begins in `s`; `none` where the run has ended before (R91). -/
def stateAfter (P : Params) : Nat → State → Option State
  | 0, s => some s
  | k + 1, s =>
    match stepWith P s with
    | .next t => stateAfter P k t
    | .fault _ => none
    | .refused _ => none

/-- What the executor reports (R91, R92; log 29). -/
inductive RunOutcome where
  /-- The run ended in a clean halt, by HLT; the host can read the whole state and the trace. -/
  | cleanHalt (s : State)
  /-- The run ended in a faulted halt; the fault is reported alongside the halt. -/
  | faultedHalt (s : State) (f : FaultRecord)
  /-- The fuel is spent and the machine is still Running. Not a state of the machine. -/
  | outOfFuel
  deriving DecidableEq, Repr

/-- What is reported of a state at which the executor stops. -/
def reportOf (s : State) : RunOutcome :=
  match s.run, s.fault with
  | .running, _ => .outOfFuel
  | .halted, none => .cleanHalt s
  | .halted, some f => .faultedHalt s f

/-- The executor: at most `fuel` steps from `s`, fewer where the machine halts before (R91; 93_implementation_defined.md
U9). -/
def runFor (P : Params) : Nat → State → RunOutcome
  | 0, s => reportOf s
  | fuel + 1, s =>
    match stepWith P s with
    | .next t => runFor P fuel t
    | .fault _ => reportOf s
    | .refused _ => reportOf s

/-- A program's run: from the reset-and-loaded state (R91; 70_reset_and_hazards.md R183). `none` where the image is refused
and no run starts (20_memory.md R53). -/
def runProgram (P : Params) (image : List Byte) (fuel : Nat) : Option RunOutcome :=
  (loadWith P image).map (runFor P fuel)

end Sys2Proof.Machine
end

