-- ==== Sys2Proof/Laws/Run.lean ====
section
/-! SUPPORT. The laws of runs: `runFor_cases` says everything the executor can report, and more fuel never changes a report that
the run ended. -/

namespace Sys2Proof.Machine

/-! ### What is reported of a state -/

theorem reportOf_cleanHalt (s t : State) : reportOf s = .cleanHalt t ↔ s = t ∧ CleanHalt s := by
  unfold reportOf CleanHalt
  split <;> simp_all

theorem reportOf_faultedHalt (s t : State) (f : FaultRecord) :
    reportOf s = .faultedHalt t f ↔ s = t ∧ s.run = .halted ∧ s.fault = some f := by
  unfold reportOf
  split <;> simp_all

theorem reportOf_outOfFuel (s : State) : reportOf s = .outOfFuel ↔ s.run = .running := by
  unfold reportOf
  split <;> simp_all

/-! ### The states of a run -/

@[simp] theorem stateAfter_zero (P : Params) (s : State) : stateAfter P 0 s = some s := rfl

theorem stateAfter_succ {P : Params} {s t : State} (h : stepWith P s = .next t) (k : Nat) :
    stateAfter P (k + 1) s = stateAfter P k t := by
  simp [stateAfter, h]

/-- A run goes on from any state on it. -/
theorem stateAfter_add (P : Params) (j k : Nat) (s : State) :
    stateAfter P (k + j) s = (stateAfter P k s).bind (stateAfter P j) := by
  induction k generalizing s with
  | zero => simp
  | succ k ih =>
    rw [Nat.succ_add]
    simp only [stateAfter]
    split
    · exact ih _
    · rfl
    · rfl

/-! ### The executor -/

/-- A Halted machine is reported at once, whatever the fuel. -/
theorem runFor_halted (P : Params) {s : State} (h : s.run = .halted) (fuel : Nat) :
    runFor P fuel s = reportOf s := by
  cases fuel <;> simp [runFor, stepWith, stepBy, h]

/-- Everything the executor can report: it stops at a state of the run, after all its fuel or where there is no further step,
and reports that state. -/
theorem runFor_cases (P : Params) (fuel : Nat) (s : State) :
    ∃ k t, k ≤ fuel ∧ stateAfter P k s = some t ∧ runFor P fuel s = reportOf t ∧
      (k = fuel ∨ ∀ u, stepWith P t ≠ .next u) := by
  induction fuel generalizing s with
  | zero => exact ⟨0, s, Nat.le_refl 0, rfl, rfl, .inl rfl⟩
  | succ fuel ih =>
    cases h : stepWith P s with
    | next v =>
      obtain ⟨k, t, hk, hs, hr, hd⟩ := ih v
      refine ⟨k + 1, t, by omega, by rw [stateAfter_succ h, hs], by simp only [runFor, h, hr], ?_⟩
      exact hd.imp (by omega) id
    | fault r => exact ⟨0, s, by omega, rfl, by simp only [runFor, h], .inr (by simp [h])⟩
    | refused r => exact ⟨0, s, by omega, rfl, by simp only [runFor, h], .inr (by simp [h])⟩

/-- A report that the run ended stands for every greater fuel. -/
theorem runFor_more_fuel (P : Params) {fuel more : Nat} (hle : fuel ≤ more) (s : State)
    (h : runFor P fuel s ≠ .outOfFuel) : runFor P more s = runFor P fuel s := by
  induction fuel generalizing more s with
  | zero =>
    cases hr : s.run with
    | running => exact absurd ((reportOf_outOfFuel s).mpr hr) h
    | halted => rw [runFor_halted P hr, runFor_halted P hr]
  | succ fuel ih =>
    obtain ⟨m, rfl⟩ : ∃ m, more = m + 1 := ⟨more - 1, by omega⟩
    cases hs : stepWith P s <;> simp only [runFor, hs] at h ⊢
    exact ih (by omega) _ h

end Sys2Proof.Machine
end

