-- ==== Sys2Proof/Laws/Step.lean ====
section
/-! SUPPORT. What a step can do, said once: `step_cases`. It runs the decoded instruction (whose cases are in Exec.lean), or it
takes a fault of the fetch. -/

namespace Sys2Proof.Machine

/-! ### The fetch window -/

/-- Inside the space the window begins with the opcode byte. -/
theorem fetchWindow_head (s : State) (h : s.pc < 256) : ∃ tl, fetchWindow s = s.mem.read s.pc :: tl := by
  simp [fetchWindow, readWindow, h, Config.memSize]

/-- Past the space the window is empty. -/
theorem fetchWindow_end (s : State) (h : 256 ≤ s.pc) : fetchWindow s = [] := readWindow_end _ _ h

/-- The window, wherever `pc` is inside the space. -/
theorem fetchWindow_cases (s : State) (h : s.pc < 256) :
    (s.pc ≤ 253 ∧ fetchWindow s = [s.mem.read s.pc, s.mem.read (s.pc + 1), s.mem.read (s.pc + 2)]) ∨
      (s.pc = 254 ∧ fetchWindow s = [s.mem.read 254, s.mem.read 255]) ∨
      (s.pc = 255 ∧ fetchWindow s = [s.mem.read 255]) := by
  by_cases h1 : s.pc ≤ 253
  · exact .inl ⟨h1, readWindow_three _ (by omega)⟩
  · by_cases h2 : s.pc = 254
    · refine .inr (.inl ⟨h2, ?_⟩)
      rw [fetchWindow, h2]
      exact readWindow_254 _
    · refine .inr (.inr ⟨by omega, ?_⟩)
      rw [fetchWindow, show s.pc = 255 by omega]
      exact readWindow_255 _

/-- Bytes that decode begin with the opcode of what they decode to, and there are enough of them. -/
theorem decodeWith_ok {om : OpcodeMap} {op : Byte} {tl rest : List Byte} {i : Instr}
    (h : decodeWith om (op :: tl) = .ok (i, rest)) :
    om i.mnemonic = op ∧ i.mnemonic.length ≤ tl.length + 1 := by
  simp only [decodeWith] at h
  split at h
  · cases h
  · rename_i m hm
    have hop := lookupOpcode_sound hm
    cases m <;> simp only [descriptor, Descriptor.operandCount, List.length_cons, List.length_nil] at h <;>
      (repeat' split at h) <;> simp_all <;> obtain ⟨rfl, rfl⟩ := h <;>
      simp [instrOf, Instr.mnemonic, Mnemonic.length, descriptor, Descriptor.operandCount, hop]

/-- A step that decodes an instruction reads its opcode byte at `pc`, and the instruction lies inside the space. -/
theorem decode_fetchWindow {om : OpcodeMap} {s : State} {i : Instr} {rest : List Byte}
    (h : decodeWith om (fetchWindow s) = .ok (i, rest)) :
    s.pc < 256 ∧ s.mem.read s.pc = om i.mnemonic ∧ s.pc + i.mnemonic.length ≤ 256 := by
  by_cases hp : s.pc < 256
  · rcases fetchWindow_cases s hp with ⟨h1, e⟩ | ⟨h1, e⟩ | ⟨h1, e⟩ <;> rw [e] at h <;>
      obtain ⟨ho, hl⟩ := decodeWith_ok h <;> simp at hl <;>
      exact ⟨hp, by simp [ho, h1], by omega⟩
  · simp [fetchWindow_end s (by omega), decodeWith] at h

/-! ### The step -/

/-- The fault of a fetch that found no instruction: InvalidOpcode or OutOfBoundsMemoryAccess; it records the opcode byte if
there is one, and writes only `run` and `fault`. -/
theorem fetchFault_cases {om : OpcodeMap} {s : State} {e : DecodeError} (he : decodeWith om (fetchWindow s) = .error e) :
    ∃ c op a b, fetchFault e s = haltFaulted c op a b s ∧
      op = (if s.pc < 256 then some (s.mem.read s.pc) else none) ∧
      ((∃ x, c = .invalidOpcode x) ∨ ∃ x, c = .outOfBoundsMemoryAccess x ∧ (s.pc ≤ 256 → x = 256)) := by
  by_cases hp : s.pc < 256
  · rw [if_pos hp]
    rcases fetchWindow_cases s hp with ⟨h, e'⟩ | ⟨h, e'⟩ | ⟨h, e'⟩ <;> rw [e', decodeWith] at he <;>
      (try simp only [h]) <;> split at he <;>
      (try (cases he; exact ⟨_, _, _, _, rfl, rfl, .inl ⟨_, rfl⟩⟩)) <;>
      rename_i m hm <;> cases m <;> simp [descriptor, Descriptor.operandCount] at he <;> subst he <;>
      exact ⟨_, _, _, _, rfl, rfl, .inr ⟨_, rfl, by intro _; omega⟩⟩
  · rw [fetchWindow_end s (by omega)] at he
    simp [decodeWith] at he
    subst he
    rw [if_neg hp]
    exact ⟨_, _, _, _, rfl, rfl, .inr ⟨_, rfl, by omega⟩⟩

/-- Everything a step can do: it runs the decoded instruction, or it takes a fault of the fetch. -/
theorem stepBy_cases {om : OpcodeMap} {run : Instr → State → Host.Outcome State Fault Refusal} {s t : State}
    (h : stepBy om run s = .next t) : s.run = .running ∧
    ((∃ i rest, decodeWith om (fetchWindow s) = .ok (i, rest) ∧ run i s = .next t) ∨
      ∃ c op a b, t = haltFaulted c op a b s ∧
        op = (if s.pc < 256 then some (s.mem.read s.pc) else none) ∧
        ((∃ x, c = .invalidOpcode x) ∨ ∃ x, c = .outOfBoundsMemoryAccess x ∧ (s.pc ≤ 256 → x = 256))) := by
  unfold stepBy at h
  cases hr : s.run with
  | halted => simp [hr] at h
  | running =>
    refine ⟨rfl, ?_⟩
    simp only [hr] at h
    split at h
    · rename_i i rest hd
      exact .inl ⟨i, rest, hd, h⟩
    · rename_i e he
      simp only [Host.Outcome.next.injEq] at h
      subst h
      exact .inr (fetchFault_cases he)

/-- The same of `step`. -/
theorem step_cases {s t : State} (h : step s = .next t) : s.run = .running ∧
    ((∃ i rest, decode (fetchWindow s) = .ok (i, rest) ∧ exec i s = .next t) ∨
      ∃ c op a b, t = haltFaulted c op a b s ∧
        op = (if s.pc < 256 then some (s.mem.read s.pc) else none) ∧
        ((∃ x, c = .invalidOpcode x) ∨ ∃ x, c = .outOfBoundsMemoryAccess x ∧ (s.pc ≤ 256 → x = 256))) :=
  stepBy_cases h

end Sys2Proof.Machine
end

