-- ==== Sys2Proof/Tests/Slice0.lean ====
section
/-! SUPPORT. Tests: the smoke test of WellFormed, one written-out word for every constructor, one-step vectors, and a witness for
the hypotheses of each obligation. Every expected value of a vector V<n> is that of 95_test_vectors.md section 2. -/

namespace Sys2Proof.Tests

open Sys2Proof Sys2Proof.Machine

/-! ### WellFormed: an ill-formed term for each check -/

theorem test_wf_ldi_register_8 : (Instr.ldi 8 0).WellFormed = false := by decide
theorem test_wf_ldi_immediate_255 : (Instr.ldi 7 255).WellFormed = true := by decide
theorem test_wf_not_register_8 : (Instr.not 8 0).WellFormed = false := by decide
theorem test_wf_not_ignored_byte_255 : (Instr.not 7 255).WellFormed = true := by decide

/-- Every two-register instruction refuses its first operand at 8 and its second at 255. -/
theorem test_wf_two_registers : ∀ f ∈ [Instr.st, .add, .sub, .mul, .and, .or, .xor, .shl, .shr, .mod, .cmp],
    (f 8 0).WellFormed = false ∧ (f 0 255).WellFormed = false ∧ (f 7 7).WellFormed = true := by decide

/-- Every one-register instruction refuses its operand at 8 and at 255. -/
theorem test_wf_one_register : ∀ f ∈ [Instr.prn, .pra, .jeq, .jne, .jmp, .push, .pop, .call],
    (f 8).WellFormed = false ∧ (f 255).WellFormed = false ∧ (f 7).WellFormed = true := by decide

/-! ### Decoding: the words of 30_encoding.md R65, one for each constructor -/

theorem test_decode_hlt : decode [0x01] = .ok (.hlt, []) := by decide
theorem test_decode_ldi : decode [0x82, 0x00, 0x08] = .ok (.ldi 0 8, []) := by decide
theorem test_decode_st : decode [0x84, 0x00, 0x01] = .ok (.st 0 1, []) := by decide
theorem test_decode_prn : decode [0x47, 0x00] = .ok (.prn 0, []) := by decide
theorem test_decode_pra : decode [0x48, 0x01] = .ok (.pra 1, []) := by decide
theorem test_decode_add : decode [0xA0, 0x02, 0x03] = .ok (.add 2 3, []) := by decide
theorem test_decode_sub : decode [0xA1, 0x02, 0x03] = .ok (.sub 2 3, []) := by decide
theorem test_decode_mul : decode [0xA2, 0x02, 0x03] = .ok (.mul 2 3, []) := by decide
theorem test_decode_mod : decode [0xA4, 0x02, 0x03] = .ok (.mod 2 3, []) := by decide
theorem test_decode_cmp : decode [0xA7, 0x02, 0x03] = .ok (.cmp 2 3, []) := by decide
theorem test_decode_and : decode [0xA8, 0x02, 0x03] = .ok (.and 2 3, []) := by decide
theorem test_decode_or : decode [0xAA, 0x02, 0x03] = .ok (.or 2 3, []) := by decide
theorem test_decode_xor : decode [0xAB, 0x02, 0x03] = .ok (.xor 2 3, []) := by decide
theorem test_decode_shl : decode [0xAC, 0x02, 0x03] = .ok (.shl 2 3, []) := by decide
theorem test_decode_shr : decode [0xAD, 0x02, 0x03] = .ok (.shr 2 3, []) := by decide
theorem test_decode_not : decode [0x69, 0x05, 0xFF] = .ok (.not 5 255, []) := by decide
theorem test_decode_jeq : decode [0x55, 0x02] = .ok (.jeq 2, []) := by decide
theorem test_decode_jne : decode [0x56, 0x02] = .ok (.jne 2, []) := by decide
theorem test_decode_jmp : decode [0x54, 0x07] = .ok (.jmp 7, []) := by decide
theorem test_decode_push : decode [0x45, 0x06] = .ok (.push 6, []) := by decide
theorem test_decode_pop : decode [0x46, 0x06] = .ok (.pop 6, []) := by decide
theorem test_decode_call : decode [0x50, 0x01] = .ok (.call 1, []) := by decide
theorem test_decode_ret : decode [0x11] = .ok (.ret, []) := by decide

/-- The bytes after the instruction are left. -/
theorem test_decode_leaves_the_rest : decode [0x47, 0x00, 0x01] = .ok (.prn 0, [0x01]) := by decide

/-- An invalid register byte is part of the instruction: it is no decoding error. -/
theorem test_decode_keeps_invalid_register : decode [0x47, 0xFF] = .ok (.prn 255, []) := by decide

theorem test_decode_rejects_no_byte : decode [] = .error .noOpcode := by decide
theorem test_decode_rejects_zero : decode [0x00] = .error (.invalidOpcode 0) := by decide
theorem test_decode_rejects_ls8_ld : decode [0x83, 0x00, 0x01] = .error (.invalidOpcode 0x83) := by decide
theorem test_decode_rejects_short_prn : decode [0x47] = .error (.noFirstOperand 0x47) := by decide
theorem test_decode_rejects_short_ldi : decode [0x82, 0x01] = .error (.noSecondOperand 0x82 1) := by decide

theorem test_encode_ldi : encode (.ldi 3 255) = [0x82, 0x03, 0xFF] := by decide
theorem test_encode_not : encode (.not 1 9) = [0x69, 0x01, 0x09] := by decide

/-- A word numbered as spec/opcode_table.json numbers it: the first byte is the lowest. -/
theorem test_table_word_ldi : decodeTableWord 24 0x080082 = some (.ldi 0 8) := by decide
theorem test_table_word_short : decodeTableWord 8 0x84 = some (.st 0 0) := by decide
theorem test_table_word_unmapped : decodeTableWord 8 0x83 = none := by decide

/-! ### One step -/

/-- A state like reset's with some registers, some bytes from an address up, and `pc`. -/
def start (p : Nat) (bytes : List Byte) (regs : List (Reg × Byte)) : State :=
  regs.foldl (fun s r => writeReg s r.1 r.2)
    { State.reset with pc := p, mem := Memory.storeBytes [] p bytes }

/-- A state with one more byte of memory. -/
def withByte (s : State) (a : Nat) (v : Byte) : State := { s with mem := s.mem.write a v }

/-- A state with these flags E, L and G. -/
def withFlags (s : State) (e l g : Bool) : State := { s with flagE := e, flagL := l, flagG := g }

/-- What is looked at in the next state of one step. -/
def after {α : Type} (s : State) (f : State → α) : Option α :=
  match step s with
  | .next t => some (f t)
  | .fault _ => none
  | .refused _ => none

/-- The run state, the cause of the fault record, and `pc`. -/
def ending (t : State) : RunState × Option Cause × Nat := (t.run, t.fault.map FaultRecord.cause, t.pc)

theorem test_V1_hlt : after (start 11 [0x01] []) ending = some (.halted, none, 11) := by decide
theorem test_V2_hlt_at_255 : after (start 255 [0x01] []) ending = some (.halted, none, 255) := by decide
theorem test_V3_zeroed_memory : after (start 0 [] []) ending = some (.halted, some (.invalidOpcode 0), 0) := by decide
theorem test_V6_operand_at_256 :
    after (start 255 [0x47] [(0, 5)]) State.fault =
      some (some ⟨.outOfBoundsMemoryAccess 256, 255, some 0x47, none, none⟩) := by decide
theorem test_V7_second_operand_at_256 :
    after (start 254 [0x82, 0x00] []) State.fault =
      some (some ⟨.outOfBoundsMemoryAccess 256, 254, some 0x82, some 0, none⟩) := by decide
theorem test_V10_pc_becomes_256 : after (start 254 [0x47, 0x00] [(0, 5)]) State.pc = some 256 := by decide
theorem test_pc_256 :
    after (start 256 [] []) State.fault =
      some (some ⟨.outOfBoundsMemoryAccess 256, 256, none, none, none⟩) := by decide
theorem test_V13_first_invalid_register :
    after (start 0 [0xA0, 0x09, 0x0A] []) State.fault =
      some (some ⟨.invalidOperandRegister 9, 0, some 0xA0, some 9, some 10⟩) := by decide

theorem test_V16_ldi : after (start 0 [0x82, 0x03, 0xFF] []) (fun t => (readReg t 3, t.pc)) = some (0xFF, 3) := by
  decide
theorem test_V17_ldi_sp : after (start 0 [0x82, 0x07, 0x80] []) spValue = some 0x80 := by decide
theorem test_V18_st :
    after (start 0 [0x84, 0x00, 0x01] [(0, 0x80), (1, 0x2A)]) (fun t => (t.mem.read 0x80, t.pc)) =
      some (0x2A, 3) := by decide
theorem test_V20_st_over_itself :
    after (start 16 [0x84, 0x00, 0x01] [(0, 0x10), (1, 0x01)]) (fun t => (t.mem.read 0x10, t.pc)) =
      some (0x01, 19) := by decide
theorem test_V23_prn : after (start 0 [0x47, 0x00] [(0, 0x48)]) State.out = some [.dec 72] := by decide
theorem test_V29_prn_invalid : after (start 0 [0x47, 0x08] []) (fun t => (t.out, ending t)) =
    some ([], .halted, some (.invalidOperandRegister 8), 0) := by decide
theorem test_V26_pra : after (start 0 [0x48, 0x01] [(1, 0x48)]) State.out = some [.chr 72] := by decide
theorem test_V28_pra_sp : after (start 0 [0x48, 0x07] []) State.out = some [.chr 244] := by decide

/-- The two operand registers R0 and R1 of an ALU vector, and the first after the step. -/
def alu (op va vb : Byte) : Option (Byte × Byte × Nat) :=
  after (start 0 [op, 0x00, 0x01] [(0, va), (1, vb)]) (fun t => (readReg t 0, readReg t 1, t.pc))

theorem test_V30_add : alu 0xA0 0xC8 0x64 = some (0x2C, 0x64, 3) := by decide
theorem test_V81_add_sp : after (start 0 [0xA0, 0x07, 0x01] [(1, 0x10)]) spValue = some 0x04 := by decide
theorem test_V34_sub : alu 0xA1 0x03 0x05 = some (0xFE, 0x05, 3) := by decide
theorem test_V36_sub : alu 0xA1 0x00 0xFF = some (0x01, 0xFF, 3) := by decide
theorem test_V40_mul : alu 0xA2 0xFF 0xFF = some (0x01, 0xFF, 3) := by decide
theorem test_V73_mul_same : after (start 0 [0xA2, 0x02, 0x02] [(2, 0x11)]) (readReg · 2) = some 0x21 := by decide
theorem test_V43_mod : alu 0xA4 0x11 0x05 = some (0x02, 0x05, 3) := by decide
theorem test_V49_mod_zero : after (start 0 [0xA4, 0x00, 0x01] [(0, 7), (1, 0)]) (fun t => (readReg t 0, ending t)) =
    some (7, .halted, some .divisionByZero, 0) := by decide
theorem test_V51_and : alu 0xA8 0xCC 0xAA = some (0x88, 0xAA, 3) := by decide
theorem test_V53_or : alu 0xAA 0xCC 0xAA = some (0xEE, 0xAA, 3) := by decide
theorem test_V55_xor : alu 0xAB 0xCC 0xAA = some (0x66, 0xAA, 3) := by decide
theorem test_V57_shl : alu 0xAC 0x81 0x01 = some (0x02, 0x01, 3) := by decide
theorem test_V62_shl_8 : alu 0xAC 0xFF 0x08 = some (0x00, 0x08, 3) := by decide
theorem test_V64_shr : alu 0xAD 0x81 0x01 = some (0x40, 0x01, 3) := by decide
theorem test_V69_shr_8 : alu 0xAD 0xFF 0x08 = some (0x00, 0x08, 3) := by decide
theorem test_V84_not : after (start 0 [0x69, 0x00, 0xFF] [(0, 0xA5)]) (fun t => (readReg t 0, t.pc)) =
    some (0x5A, 3) := by decide
theorem test_V88_not_at_254 : after (start 254 [0x69, 0x00] []) ending =
    some (.halted, some (.outOfBoundsMemoryAccess 256), 254) := by decide
theorem test_V93_cmp_unsigned : after (start 0 [0xA7, 0x00, 0x01] [(0, 0xC8), (1, 0x64)])
    (fun t => (t.flagE, t.flagL, t.flagG)) = some (false, false, true) := by decide
theorem test_V95_cmp_overwrites : after (withFlags (start 0 [0xA7, 0x04, 0x04] [(4, 0x21)]) false true false)
    (fun t => (t.flagE, t.flagL, t.flagG)) = some (true, false, false) := by decide

theorem test_V101_jeq_taken :
    after (withFlags (start 10 [0x55, 0x02] [(2, 0x20)]) true false false) State.pc = some 32 := by decide
theorem test_V104_jeq_not_taken_at_254 : after (start 254 [0x55, 0x02] [(2, 0x20)]) State.pc = some 256 := by decide
theorem test_V107_jne_taken : after (start 10 [0x56, 0x02] [(2, 0x20)]) State.pc = some 32 := by decide
theorem test_V108_jne_not_taken :
    after (withFlags (start 10 [0x56, 0x02] [(2, 0x20)]) true false false) State.pc = some 12 := by decide
theorem test_V99_jmp_invalid : after (start 3 [0x54, 0x08] []) ending =
    some (.halted, some (.invalidOperandRegister 8), 3) := by decide
theorem test_V100_jmp_sp : after (start 3 [0x54, 0x07] []) State.pc = some 244 := by decide

theorem test_V114_push_sp : after (start 0 [0x45, 0x07] []) (fun t => (spValue t, t.mem.read 0xF3, t.pc)) =
    some (0xF3, 0xF3, 2) := by decide
theorem test_V113_push_underflow : after (start 4 [0x45, 0x00] [(0, 0x2A), (7, 0)]) ending =
    some (.halted, some .stackUnderflow, 4) := by decide
theorem test_V119_pop_sp : after (withByte (start 0 [0x46, 0x07] [(7, 0xF3)]) 0xF3 0x40) spValue = some 0x41 := by
  decide
theorem test_V118_pop_overflow : after (withByte (start 0 [0x46, 0x01] [(1, 0x77), (7, 0xFF)]) 0xFF 0x11)
    (fun t => (readReg t 1, ending t)) = some (0x77, .halted, some .stackOverflow, 0) := by decide
theorem test_V123_call_at_253 : after (start 253 [0x50, 0x01] [(1, 0x20)])
    (fun t => (spValue t, t.mem.read 0xF3, t.pc)) = some (0xF3, 0xFF, 32) := by decide
theorem test_V125_call_at_254 : after (start 254 [0x50, 0x01] [(1, 0x20), (7, 0)]) ending =
    some (.halted, some (.outOfBoundsMemoryAccess 256), 254) := by decide
theorem test_V134_ret : after (withByte (start 48 [0x11] [(7, 0xFE)]) 0xFE 0xFF) (fun t => (spValue t, t.pc)) =
    some (0xFF, 255) := by decide
theorem test_V132_ret_overflow : after (withByte (start 48 [0x11] [(7, 0xFF)]) 0xFF 0x08) ending =
    some (.halted, some .stackOverflow, 48) := by decide

/-- 90_conflicts.md and 40_dispatch_and_halt.md R80: a Halted machine has no step. -/
theorem test_halted_has_no_step : after { State.reset with run := .halted } ending = none := by decide

theorem test_fetch_word_runs_first : after (State.reset.withFetchWord 24 0x080082) (fun t => (readReg t 0, t.pc)) =
    some (8, 3) := by decide

/-- 70_reset_and_hazards.md R182: the image stands at address 0 upward. -/
theorem test_load : (load [0x82, 0x00, 0x08]).map (fun s => (s.mem.read 0, s.mem.read 2, s.mem.read 3, s.pc)) =
    some (0x82, 0x08, 0x00, 0) := by decide

/-! ### Other parameters -/

/-- A configuration that differs from the default in all three parameters: the mnemonics of 30_encoding.md R64 in order from
opcode 0x30 (so 0x30 is HLT, 0x43 PUSH), stack pointer R3, which starts at 255. -/
def otherParams : Params where
  opcodeMap m := BitVec.ofNat 8 (0x30 + allMnemonics.idxOf m)
  spIndex := 3
  spInit := 255
  opcodeMap_legal := by
    intro m n h
    revert h
    cases m <;> cases n <;> decide
  spInit_ne_zero := by decide

/-- What is looked at in the next state of one step under the other parameters. -/
def afterOther {α : Type} (s : State) (f : State → α) : Option α :=
  match stepWith otherParams s with
  | .next t => some (f t)
  | .fault _ => none
  | .refused _ => none

/-- V111 with the other parameters: PUSH R0 from reset, `sp` being R3. -/
theorem test_other_push :
    afterOther { resetWith otherParams with mem := Memory.storeBytes [] 0 [0x43, 0x00] }
      (fun t => (readReg t 3, readReg t 7, t.mem.read 254, t.pc)) = some (254, 0, 0, 2) := by decide

/-- V3 and V1 with the other parameters: 0x01 is not mapped there, 0x30 is HLT. -/
theorem test_other_opcodes :
    afterOther (start 0 [0x01] []) ending = some (.halted, some (.invalidOpcode 1), 0) ∧
      afterOther (start 0 [0x30] []) ending = some (.halted, none, 0) := by decide

/-- V113 with the other parameters: the record holds that map's opcode byte. -/
theorem test_other_underflow :
    afterOther (start 4 [0x43, 0x00] [(3, 0)]) State.fault =
      some (some ⟨.stackUnderflow, 4, some 0x43, some 0, none⟩) := by decide

/-! ### Runs -/

/-- 40_dispatch_and_halt.md R91's loop in two bytes: JMP R0 with R0 = 0 at address 0 jumps to itself. -/
theorem test_run_out_of_fuel : runProgram defaultParams [0x54, 0x00] 3 = some .outOfFuel := by decide

/-- A HLT ends the run cleanly with the last of the fuel; without fuel it is not reached. -/
theorem test_run_clean_halt :
    runProgram defaultParams [0x01] 1 =
        some (.cleanHalt { State.reset with mem := [(0, 0x01)], run := .halted }) ∧
      runProgram defaultParams [0x01] 0 = some .outOfFuel := by decide

/-- V3 as a run: the fault is reported alongside the halt, whatever fuel is left. -/
theorem test_run_faulted_halt :
    runProgram defaultParams [] 2 =
      some (.faultedHalt
        { State.reset with run := .halted, fault := some ⟨.invalidOpcode 0, 0, some 0, none, none⟩ }
        ⟨.invalidOpcode 0, 0, some 0, none, none⟩) := by decide

/-! ### Witnesses: concrete inputs that meet the hypotheses of the obligations -/

theorem witness_DecodeEncodeUnderEveryLegalMap : opcodeMap.Legal := opcodeMap_legal

theorem witness_EncodeDecodeUnderEveryMap :
    decodeWith opcodeMap [0x69, 0x01, 0xFF, 0x01] = .ok (.not 1 0xFF, [0x01]) := by decide

theorem witness_DecodeConsumesTheLength :
    decode [0x11, 0x01] = .ok (.ret, [0x01]) ∧ decode [0x45, 0x07] = .ok (.push 7, []) ∧
      decode [0xAD, 0x00, 0x07] = .ok (.shr 0 7, []) := by decide

theorem witness_StepRunsTheDecodedInstruction :
    (start 253 [0x82, 0x01, 0x07] []).run = .running ∧
      decode (fetchWindow (start 253 [0x82, 0x01, 0x07] [])) = .ok (.ldi 1 7, []) := by decide

theorem witness_StepIsTheStepOfCheckedReads : (start 254 [0x82, 0x00] []).run = .running := by decide

/-- Both directions: a Running state, and a state with a next state. -/
theorem witness_StepDefinedExactlyWhenRunning :
    State.reset.run = .running ∧ ∃ t, step State.reset = .next t := ⟨rfl, _, rfl⟩

/-- `pc` at 255, the last of its clause, and at 256. -/
theorem witness_OpcodeFetchIsChecked :
    (start 255 [] []).pc < 256 ∧ (start 256 [] []).run = .running ∧ (start 256 [] []).pc = 256 := by decide

theorem witness_UnmappedOpcodeFaults :
    (start 255 [0xFF] []).run = .running ∧ (start 255 [0xFF] []).pc < 256 ∧
      ∀ m, opcodeMap m ≠ (start 255 [0xFF] []).mem.read (start 255 [0xFF] []).pc := by
  refine ⟨by decide, by decide, fun m => ?_⟩
  cases m <;> decide

/-- What OperandFetchFaults assumes of a mnemonic at a state. -/
def FetchPastTheEnd (m : Mnemonic) (s : State) : Prop :=
  s.run = .running ∧ s.pc < 256 ∧ s.mem.read s.pc = opcodeMap m ∧ 256 < s.pc + m.length

/-- The first clause at 255 and at 254, the second where the instruction ends at 255 exactly. -/
theorem witness_OperandFetchIsChecked :
    FetchPastTheEnd .prn (start 255 [0x47] []) ∧ FetchPastTheEnd .not (start 254 [0x69] []) ∧
      (start 253 [0x82] []).run = .running ∧ (start 253 [0x82] []).mem.read 253 = opcodeMap .ldi ∧
      (start 253 [0x82] []).pc + Mnemonic.ldi.length ≤ 256 := by
  unfold FetchPastTheEnd
  decide

theorem witness_InvalidRegisterOperandFaults :
    (Instr.add 9 10).firstInvalidRegister = some 9 ∧ (Instr.add 7 8).firstInvalidRegister = some 8 ∧
      (Instr.not 7 255).firstInvalidRegister = none ∧ (Instr.not 7 255).WellFormed = true := by decide

/-- What EveryFaultIsPrecise assumes of a state. -/
def StepFaults (s : State) : Prop :=
  s.fault = none ∧ ∃ t f, step s = .next t ∧ t.fault = some f

/-- A fault of an instruction, one of the fetch inside the space, and one at 256. -/
theorem witness_EveryFaultIsPrecise :
    StepFaults (start 0 [0xA4, 0x00, 0x01] []) ∧ StepFaults (start 255 [0x47] []) ∧ StepFaults (start 256 [] []) :=
  ⟨⟨rfl, _, _, rfl, rfl⟩, ⟨rfl, _, _, rfl, rfl⟩, ⟨rfl, _, _, rfl, rfl⟩⟩

/-- Both ways to halt. -/
theorem witness_HaltOnlyByHltOrFault :
    (∃ t, step (start 255 [0x01] []) = .next t ∧ t.run = .halted) ∧
      ∃ t, step (start 0 [0x00] []) = .next t ∧ t.run = .halted := ⟨⟨_, rfl, rfl⟩, ⟨_, rfl, rfl⟩⟩

/-- A state as SequentialAdvance assumes it: the instruction completes and is one of those that advance. -/
theorem witness_SequentialAdvance :
    ∃ t, exec (.push 0) (start 254 [0x45, 0x00] []) = .next t ∧ State.fault (start 254 [0x45, 0x00] []) = none ∧
      t.fault = none ∧ (Instr.push 0).mnemonic ∉ [Mnemonic.hlt, .jeq, .jne, .jmp, .call, .ret] :=
  ⟨_, rfl, rfl, rfl, by decide⟩

/-- The other clause: RET and HLT are among the instructions it names. -/
theorem witness_SequentialAdvance_owners :
    Instr.ret.mnemonic ∈ [Mnemonic.hlt, .jeq, .jne, .jmp, .call, .ret] ∧
      Instr.hlt.mnemonic ∈ [Mnemonic.hlt, .jeq, .jne, .jmp, .call, .ret] := by decide

/-- The invariant at the last `pc` it allows, with memory listed and a flag set. -/
theorem inv_at_256 : StateInv (withFlags (withByte (start 256 [] []) 255 0xFF) false true false) := by
  unfold StateInv AtMostOneFlag
  decide

/-- The invariant at 253, with a CALL there. -/
theorem inv_at_253 : StateInv (start 253 [0x50, 0x01] []) := by
  unfold StateInv AtMostOneFlag
  decide

theorem witness_StepKeepsTheInvariant :
    StateInv (start 253 [0x50, 0x01] []) ∧ ∃ t, step (start 253 [0x50, 0x01] []) = .next t := ⟨inv_at_253, _, rfl⟩

theorem witness_OutOfBoundsAddressIsAlways256 :
    ∃ s t f, StateInv s ∧ step s = .next t ∧ s.fault = none ∧ t.fault = some f ∧
      f.cause = .outOfBoundsMemoryAccess 256 :=
  ⟨withFlags (withByte (start 256 [] []) 255 0xFF) false true false, _, _, inv_at_256, rfl, rfl, rfl, rfl⟩

theorem witness_LaunchStateHasTheInvariant : ∃ s, load [0x82, 0x00, 0x08] = some s := ⟨_, rfl⟩

/-- The images at the two sides of the bound, 256 bytes and 257. -/
theorem witness_LoadPlacesTheImage :
    (List.replicate 256 (0x01 : Byte)).length ≤ 256 ∧ 256 < (List.replicate 257 (0x01 : Byte)).length :=
  ⟨Nat.le_of_eq List.length_replicate, by rw [List.length_replicate]; omega⟩

theorem witness_ExactlyOneFlagOnceCompared :
    (∃ t, exec (.cmp (regByte 7) (regByte 7)) State.reset = .next t) ∧
      ExactlyOneFlag (withFlags State.reset false false true) ∧
      ∃ t, step (withFlags State.reset false false true) = .next t := by
  refine ⟨⟨_, rfl⟩, ?_, ⟨_, rfl⟩⟩
  unfold ExactlyOneFlag AtMostOneFlag
  decide

theorem witness_OnlyCmpWritesFlags : ∃ t, step (start 0 [0xA7, 0x00, 0x07] []) = .next t ∧ t.flagL = true :=
  ⟨_, rfl, rfl⟩

theorem witness_OnlyPrnAndPraEmit : ∃ t, step (start 0 [0x48, 0x07] []) = .next t ∧ t.out = [.chr 0xF4] :=
  ⟨_, rfl, rfl⟩

/-- The addresses on the two sides of the bound. -/
theorem witness_CheckedWriteChangesOneCell : 255 < 256 ∧ 255 ≤ 255 := by decide

theorem witness_CanonicalMemory :
    Memory.wf [(0, 1), (255, 2)] = true ∧ ∀ a, a < 256 →
      Memory.read [(0, 1), (255, 2)] a = Memory.read (Memory.write (Memory.write [] 255 2) 0 1) a :=
  ⟨by decide, fun a _ => congrArg (Memory.read · a) (by decide)⟩

/-! A register byte of 8, the first above 7, is the witness of each clause on an invalid register. -/

theorem witness_LdiLoadsTheImmediate : 7 < (8 : Byte).toNat ∧ FetchPastTheEnd .ldi (start 254 [0x82] []) := by
  unfold FetchPastTheEnd
  decide

theorem witness_StStoresTheRegister :
    7 < (8 : Byte).toNat ∧ (7 : Byte).toNat ≤ 7 ∧ FetchPastTheEnd .st (start 254 [0x84] []) := by
  unfold FetchPastTheEnd
  decide

theorem witness_PrnEmitsTheNumber : 7 < (8 : Byte).toNat ∧ FetchPastTheEnd .prn (start 255 [0x47] []) := by
  unfold FetchPastTheEnd
  decide

theorem witness_PraEmitsTheCode : 7 < (8 : Byte).toNat ∧ FetchPastTheEnd .pra (start 255 [0x48] []) := by
  unfold FetchPastTheEnd
  decide

theorem witness_JmpJumps : 7 < (255 : Byte).toNat := by decide

theorem witness_HltHaltsCleanly : (start 255 [0x01] []).fault = none := rfl

/-- A divisor of 1, the least that is not zero, and a divisor of 0. -/
theorem witness_ModIsTheUnsignedRemainder :
    (readReg (start 0 [] [(1, 1)]) 1).toNat ≠ 0 ∧ (readReg (start 0 [] []) 1).toNat = 0 := by decide

theorem witness_DivisionByZeroBelongsToMod :
    (readReg (start 0 [] []) 1).toNat = 0 ∧
      ∃ t f, step (start 0 [0xA4, 0x00, 0x01] []) = .next t ∧ State.fault (start 0 [0xA4, 0x00, 0x01] []) = none ∧
        t.fault = some f ∧ f.cause = .divisionByZero := ⟨by decide, _, _, rfl, rfl, rfl, rfl⟩

/-- An amount of 8, the least that clears. -/
theorem witness_ShiftsUseTheWholeAmount : 8 ≤ (readReg (start 0 [] [(1, 8)]) 1).toNat := by decide

theorem witness_AluIdentities :
    (∃ t, exec (.not (regByte 0) 9) State.reset = .next t) ∧ (0 : Reg) ≠ 1 ∧
      ∃ t, exec (.add (regByte 0) (regByte 1)) State.reset = .next t := ⟨⟨_, rfl⟩, by decide, _, rfl⟩

theorem witness_JeqJumpsWhenEqual :
    (withFlags State.reset true false false).flagE = true ∧ State.reset.flagE = false := by decide

theorem witness_JneJumpsWhenNotEqual :
    State.reset.flagE = false ∧ (withFlags State.reset true false false).flagE = true := by decide

/-- The stack pointer at 1, the last that can be pushed on, and at 0. -/
theorem witness_PushWritesBelowTheStackPointer :
    (spValue (start 0 [] [(7, 1)])).toNat ≠ 0 ∧ (spValue (start 0 [] [(7, 0)])).toNat = 0 := by decide

/-- The stack pointer at 254 and at 255; and a byte of 254 and of 255 popped into the stack pointer. -/
theorem witness_PopReadsAtTheStackPointer :
    (0 : Reg) ≠ spIndex ∧ (spValue (start 0 [] [(7, 254)])).toNat ≠ 255 ∧
      (spValue (start 0 [] [(7, 255)])).toNat = 255 ∧
      ((start 0 [0xFE] [(7, 0)]).mem.read (spValue (start 0 [0xFE] [(7, 0)])).toNat).toNat ≠ 255 ∧
      ((start 0 [0xFF] [(7, 0)]).mem.read (spValue (start 0 [0xFF] [(7, 0)])).toNat).toNat = 255 := by decide

/-- `pc` at 253 with the stack pointer at 1 and at 0, and `pc` at 254. -/
theorem witness_CallPushesTheReturnAddress :
    (start 253 [] [(7, 1)]).pc ≤ 253 ∧ (spValue (start 253 [] [(7, 1)])).toNat ≠ 0 ∧
      254 ≤ (start 254 [] []).pc ∧ (spValue (start 253 [] [(7, 0)])).toNat = 0 := by decide

theorem witness_RetPopsThePc :
    (spValue (start 0 [] [(7, 254)])).toNat ≠ 255 ∧ (spValue (start 0 [] [(7, 255)])).toNat = 255 := by decide

theorem witness_PushThenPopRestoresRegisters : 1 ≤ (spValue (start 0 [] [(7, 1)])).toNat ∧ (0 : Reg) ≠ spIndex := by
  decide

/-- A state after the CALL as the statement assumes it: the one right after it. -/
theorem witness_CallThenRetReturns :
    (start 253 [] [(7, 1)]).pc ≤ 253 ∧ 1 ≤ (spValue (start 253 [] [(7, 1)])).toNat ∧
      ∃ t u, exec (.call (regByte 0)) (start 253 [] [(7, 1)]) = .next t ∧ spValue u = spValue t ∧
        u.mem.read (spValue u).toNat = t.mem.read (spValue t).toNat :=
  ⟨by decide, by decide, _, _, rfl, rfl, rfl⟩

/-- A completing LDI, and a register it does not write. -/
theorem witness_RegisterResultFrame :
    Instr.mnemonic (.ldi 0 255) ∈ [Mnemonic.ldi, .not, .add, .sub, .mul, .mod, .and, .or, .xor, .shl, .shr] ∧
      (∃ t, exec (.ldi 0 255) State.reset = .next t) ∧
      (Instr.ldi 0 255).operands[0]? ≠ some (regByte 7) := ⟨by decide, ⟨_, rfl⟩, by decide⟩

theorem witness_NonWritingFrame :
    Instr.hlt.mnemonic ∈ [Mnemonic.cmp, .prn, .pra, .jeq, .jne, .jmp, .hlt] ∧
      Instr.mnemonic (.cmp 0 0) ∈ [Mnemonic.cmp, .prn, .pra, .jeq, .jne, .jmp, .hlt] ∧
      (∃ t, exec .hlt State.reset = .next t) ∧ ∃ t, exec (.cmp 0 0) State.reset = .next t :=
  ⟨by decide, by decide, ⟨_, rfl⟩, _, rfl⟩

/-- A ST that stores, and one whose second operand names no register, so that it faults. -/
theorem witness_StFrame :
    (∃ t, exec (.st 7 0) State.reset = .next t) ∧ regOperand 7 = .ok 7 ∧
      regOperand 8 = .error (.invalidOperandRegister 8) ∧
      ∃ t, exec (.st 7 8) State.reset = .next t ∧ t.fault ≠ State.reset.fault :=
  ⟨⟨_, rfl⟩, rfl, rfl, _, rfl, by decide⟩

/-- A stack pointer of 1, which moves, and of 0, which does not. -/
theorem witness_PushCallFrame :
    Instr.mnemonic (.push 0) ∈ [Mnemonic.push, .call] ∧ (∃ t, exec (.push 0) (start 0 [] [(7, 1)]) = .next t) ∧
      (∃ s1, moveSp (start 0 [] [(7, 1)]) ((spValue (start 0 [] [(7, 1)])).toNat - 1) = .ok s1) ∧
      (∃ c, moveSp (start 0 [] [(7, 0)]) ((spValue (start 0 [] [(7, 0)])).toNat - 1) = .error c) ∧
      ∃ t, exec (.push 0) (start 0 [] [(7, 0)]) = .next t ∧ t.fault ≠ (start 0 [] [(7, 0)]).fault :=
  ⟨by decide, ⟨_, rfl⟩, ⟨_, rfl⟩, ⟨_, rfl⟩, _, rfl, by decide⟩

theorem witness_PopRetFrame :
    Instr.ret.mnemonic ∈ [Mnemonic.pop, .ret] ∧ Instr.mnemonic (.pop 0) ∈ [Mnemonic.pop, .ret] ∧
      (∃ t, exec .ret State.reset = .next t) ∧ (∃ t, exec (.pop 0) State.reset = .next t) ∧
      (1 : Reg) ≠ spIndex ∧ (Instr.pop 0).operands[0]? ≠ some (regByte 1) :=
  ⟨by decide, by decide, ⟨_, rfl⟩, ⟨_, rfl⟩, by decide, by decide⟩

/-- A launch, and a state with the invariant that steps, under the other parameters. -/
theorem witness_EveryConfigurationKeepsTheInvariant :
    (∃ s, loadWith otherParams [0x43, 0x00] = some s) ∧ StateInv (start 253 [0x50, 0x01] []) ∧
      ∃ t, stepWith otherParams (start 253 [0x50, 0x01] []) = .next t := ⟨⟨_, rfl⟩, inv_at_253, _, rfl⟩

/-- An LDI of the other map that ends at 255, and a byte the map does not use at 255. -/
theorem witness_EveryConfigurationRunsItsOwnOpcodes :
    ((start 253 [0x31, 0x01, 0x07] []).run = .running ∧
      (start 253 [0x31, 0x01, 0x07] []).pc + (Instr.ldi 1 7).mnemonic.length ≤ 256 ∧
      encodeWith otherParams.opcodeMap (.ldi 1 7) = [0x31, 0x01, 0x07] ∧
      (start 253 [0x31, 0x01, 0x07] []).mem.read 253 = 0x31 ∧
      (start 253 [0x31, 0x01, 0x07] []).mem.read 254 = 0x01 ∧
      (start 253 [0x31, 0x01, 0x07] []).mem.read 255 = 0x07) ∧
    (start 255 [0x01] []).pc < 256 ∧ ∀ m, otherParams.opcodeMap m ≠ (start 255 [0x01] []).mem.read 255 := by
  refine ⟨by decide, by decide, fun m => ?_⟩
  cases m <;> decide

/-- An instruction outside the stack family under another SP_INDEX, and one inside it under the default. -/
theorem witness_EveryOpcodeMapGivesTheSameMeaning :
    (Instr.add 0 1).mnemonic ∉ [Mnemonic.push, .pop, .call, .ret] ∧
      (Instr.push 0).mnemonic ∈ [Mnemonic.push, .pop, .call, .ret] ∧ defaultParams.spIndex = spIndex := by decide

/-- R3, the other stack pointer, at the boundary of each clause: 1 and 0 for PUSH, 254 and 255 for POP and RET, and into the
stack pointer itself a byte of 254 and of 255; CALL at 253 with 1 and 0, and at 254. -/
theorem witness_StackUsesTheConfiguredRegister :
    (0 : Byte).toNat + 1 = (readReg (start 253 [] [(3, 1)]) otherParams.spIndex).toNat ∧
      (readReg (start 253 [] [(3, 0)]) otherParams.spIndex).toNat = 0 ∧
      (255 : Byte).toNat = (readReg (start 0 [] [(3, 254)]) otherParams.spIndex).toNat + 1 ∧
      (readReg (start 0 [] [(3, 255)]) otherParams.spIndex).toNat = 255 ∧
      (254 : Byte) = (start 0 [0xFE] [(3, 0)]).mem.read (readReg (start 0 [0xFE] [(3, 0)]) otherParams.spIndex).toNat ∧
      (255 : Byte) = (start 0 [0xFF] [(3, 0)]).mem.read (readReg (start 0 [0xFF] [(3, 0)]) otherParams.spIndex).toNat ∧
      (255 : Byte).toNat = (start 253 [] [(3, 1)]).pc + 2 ∧ (start 253 [] [(3, 0)]).pc ≤ 253 ∧
      (start 254 [] []).pc = 254 := by decide

end Sys2Proof.Tests
end

/-! ## The flags: what each way a step can end does to them (10_state.md R27) -/

namespace Sys2Proof.Machine

/-- Taking a fault leaves the flags alone (60_exceptions.md R169). -/
theorem sameFlags_haltFaulted (c : Cause) (op a b : Option Byte) (s : State) :
    SameFlags s (haltFaulted c op a b s) :=
  ⟨haltFaulted_flagE c op a b s, haltFaulted_flagL c op a b s, haltFaulted_flagG c op a b s⟩

theorem sameFlags_takeFault (c : Cause) (i : Instr) (s : State) : SameFlags s (takeFault c i s) := by
  rw [takeFault_eq]
  exact sameFlags_haltFaulted ..

/-- A completed instruction other than CMP leaves the flags alone. -/
theorem Completes.sameFlags {sp : Reg} {i : Instr} {s t : State} (h : Completes sp i s t) (hi : i.mnemonic ≠ .cmp) :
    SameFlags s t := by
  cases h
  case cmp => exact absurd rfl hi
  all_goals exact ⟨rfl, rfl, rfl⟩

/-- A completed CMP compares two registers and does nothing else but advance (43_alu.md R131). -/
theorem Completes.cmp_inv {sp : Reg} {i : Instr} {s t : State} (h : Completes sp i s t) (hi : i.mnemonic = .cmp) :
    ∃ r q, i = .cmp (regByte r) (regByte q) ∧
      t = { compareFlags (readReg s r) (readReg s q) s with pc := s.pc + 3 } := by
  cases h
  case cmp r q => exact ⟨r, q, rfl, rfl⟩
  all_goals cases hi

/-- Settles O23: a step ends in a fault of the fetch, in a fault of the instruction, or in a completed instruction, and only
a completed CMP touches the flags. -/
theorem onlyCmpWritesFlags : Obligations.OnlyCmpWritesFlags := by
  intro s t h
  obtain ⟨-, ⟨i, rest, hdecode, hexec⟩ | ⟨c, op, a, b, rfl, -⟩⟩ := step_cases h
  · rcases exec_next_cases hexec with hdone | ⟨c, -, rfl⟩
    · by_cases hi : i.mnemonic = .cmp
      · obtain ⟨r, q, rfl, rfl⟩ := hdone.cmp_inv hi
        exact .inr ⟨r, q, rest, hdecode, rfl, rfl, rfl⟩
      · exact .inl (hdone.sameFlags hi)
    · exact .inl (sameFlags_takeFault c i s)
  · exact .inl (sameFlags_haltFaulted c op a b s)

end Sys2Proof.Machine

/-! ## The checked write (20_memory.md R42) -/

namespace Sys2Proof.Machine

/-- Settles O25: the checked write either stores inside the space, and then the law of reading after writing says what every
cell holds, or faults outside it; the bound on the address says which. -/
theorem checkedWriteChangesOneCell : Obligations.CheckedWriteChangesOneCell := by
  intro s addr v
  obtain ⟨hin, hstore⟩ | ⟨hout, hfault⟩ := memWrite_cases s addr v
  · exact ⟨fun habove => by omega, fun _ => ⟨s.mem.write addr v, hstore, fun x => Memory.read_write s.mem addr x v⟩⟩
  · exact ⟨fun _ => hfault, fun hbelow => by omega⟩

end Sys2Proof.Machine

/-! ## Dispatch and halt: what the step does, by what the bytes at `pc` decode to (40_dispatch_and_halt.md R80 to R84) -/

namespace Sys2Proof

/-! ### The operand bytes a mnemonic has no use for -/

theorem instrOf_of_length_one {m : Mnemonic} (h : m.length = 1) (a b : Byte) : instrOf m a b = instrOf m 0 0 := by
  cases m <;> simp_all [Mnemonic.length, descriptor, Descriptor.operandCount, instrOf]

theorem instrOf_of_length_two {m : Mnemonic} (h : m.length = 2) (a b : Byte) : instrOf m a b = instrOf m a 0 := by
  cases m <;> simp_all [Mnemonic.length, descriptor, Descriptor.operandCount, instrOf]

/-! ### The decoder, by descriptor resolution and the number of bytes -/

theorem operandCount_eq {m : Mnemonic} {n : Nat} (h : m.length = n + 1) : (descriptor m).operandCount = n := by
  unfold Mnemonic.length at h
  omega

theorem decodeWith_of_unmapped {om : OpcodeMap} {op : Byte} (h : ∀ m, om m ≠ op) (tl : List Byte) :
    decodeWith om (op :: tl) = .error (.invalidOpcode op) := by
  simp [decodeWith, lookupOpcode_none.mpr h]

/-- The first `n` of three bytes decode when the instruction the first one resolves to is not longer. -/
theorem decodeWith_take_of_length_le {om : OpcodeMap} {op : Byte} {m : Mnemonic} (hm : lookupOpcode om op = some m)
    (a b : Byte) {n : Nat} (hn : m.length ≤ n) :
    ∃ rest, decodeWith om ([op, a, b].take n) = .ok (instrOf m a b, rest) := by
  have hpos := length_pos m
  have hle : m.length ≤ 3 := length_le m
  obtain ⟨k, rfl⟩ : ∃ k, n = k + 1 := ⟨n - 1, by omega⟩
  obtain h1 | h2 | h3 : m.length = 1 ∨ m.length = 2 ∨ m.length = 3 := by omega
  · rw [instrOf_of_length_one h1]
    exact ⟨[a, b].take k, by simp [decodeWith, hm, operandCount_eq h1]⟩
  · rw [instrOf_of_length_two h2]
    obtain ⟨j, rfl⟩ : ∃ j, k = j + 1 := ⟨k - 1, by omega⟩
    exact ⟨[b].take j, by simp [decodeWith, hm, operandCount_eq h2]⟩
  · obtain ⟨j, rfl⟩ : ∃ j, k = j + 2 := ⟨k - 2, by omega⟩
    exact ⟨[], by simp [decodeWith, hm, operandCount_eq h3]⟩

theorem decodeWith_noFirstOperand {om : OpcodeMap} {op : Byte} {m : Mnemonic} (hm : lookupOpcode om op = some m)
    (h : 1 < m.length) : decodeWith om [op] = .error (.noFirstOperand op) := by
  obtain ⟨n, hn⟩ : ∃ n, m.length = n + 1 + 1 := ⟨m.length - 2, by omega⟩
  simp [decodeWith, hm, operandCount_eq hn]

theorem decodeWith_noSecondOperand {om : OpcodeMap} {op : Byte} {m : Mnemonic} (hm : lookupOpcode om op = some m)
    (h : 2 < m.length) (a : Byte) : decodeWith om [op, a] = .error (.noSecondOperand op a) := by
  obtain ⟨n, hn⟩ : ∃ n, m.length = n + 2 + 1 := ⟨m.length - 3, by omega⟩
  simp [decodeWith, hm, operandCount_eq hn]

end Sys2Proof

namespace Sys2Proof.Machine

/-! ### The step, by what the fetch window decodes to -/

theorem stepBy_of_decode_ok {om : OpcodeMap} (run : Instr → State → Host.Outcome State Fault Refusal) {s : State}
    {i : Instr} {rest : List Byte} (hrun : s.run = .running) (h : decodeWith om (fetchWindow s) = .ok (i, rest)) :
    stepBy om run s = run i s := by
  simp [stepBy, hrun, h]

theorem stepBy_of_decode_error {om : OpcodeMap} (run : Instr → State → Host.Outcome State Fault Refusal) {s : State}
    {e : DecodeError} (hrun : s.run = .running) (h : decodeWith om (fetchWindow s) = .error e) :
    stepBy om run s = .next (fetchFault e s) := by
  simp [stepBy, hrun, h]

theorem step_of_decode_ok {s : State} {i : Instr} {rest : List Byte} (hrun : s.run = .running)
    (h : decode (fetchWindow s) = .ok (i, rest)) : step s = exec i s :=
  stepBy_of_decode_ok exec hrun h

theorem step_of_decode_error {s : State} {e : DecodeError} (hrun : s.run = .running)
    (h : decode (fetchWindow s) = .error e) : step s = .next (fetchFault e s) :=
  stepBy_of_decode_error exec hrun h

theorem exec_next (i : Instr) (s : State) : ∃ t, exec i s = .next t := by
  rw [exec_eq]
  exact concludeWith_next ..

/-- The fetch window is what exists of the three bytes from `pc` on; past the space nothing does. -/
theorem fetchWindow_eq_take (s : State) : fetchWindow s =
    [s.mem.read s.pc, s.mem.read (s.pc + 1), s.mem.read (s.pc + 2)].take (256 - s.pc) := by
  by_cases hpc : s.pc < 256
  · rcases fetchWindow_cases s hpc with ⟨hp, hw⟩ | ⟨hp, hw⟩ | ⟨hp, hw⟩
    · obtain ⟨k, hk⟩ : ∃ k, 256 - s.pc = k + 3 := ⟨253 - s.pc, by omega⟩
      simp [hw, hk]
    · simp [hw, hp]
    · simp [hw, hp]
  · have hk : 256 - s.pc = 0 := by omega
    rw [fetchWindow_end s (by omega), hk, List.take_zero]

theorem lookupOpcode_fetched {s : State} {m : Mnemonic} (h : s.mem.read s.pc = opcodeMap m) :
    lookupOpcode opcodeMap (s.mem.read s.pc) = some m := by
  rw [h]
  exact lookupOpcode_complete opcodeMap_legal m

theorem raisesFault_haltFaulted (c : Cause) (op a b : Option Byte) (s : State) :
    RaisesFault c (.next (haltFaulted c op a b s)) :=
  ⟨_, _, rfl, haltFaulted_run .., haltFaulted_fault .., rfl⟩

/-! ### The obligations -/

/-- Settles O7: a Halted machine has no step by `step_cases`; a Running one runs the decoded instruction, which always
answers, or takes the fault of the fetch. -/
theorem stepDefinedExactlyWhenRunning : Obligations.StepDefinedExactlyWhenRunning := by
  intro s
  refine ⟨fun ⟨t, ht⟩ => (step_cases ht).1, fun hrun => ?_⟩
  cases hdecode : decode (fetchWindow s) with
  | ok p =>
    rw [step_of_decode_ok hrun hdecode]
    exact exec_next p.1 s
  | error e => exact ⟨_, step_of_decode_error hrun hdecode⟩

/-- Settles O9: inside the space the window begins with the opcode byte, and at 256 it is empty. -/
theorem opcodeFetchIsChecked : Obligations.OpcodeFetchIsChecked := by
  refine ⟨fun s hpc => ?_, fun s hrun hpc => ?_⟩
  · obtain ⟨tl, htl⟩ := fetchWindow_head s hpc
    rw [htl, List.head?_cons]
  · have hdecode : decode (fetchWindow s) = .error .noOpcode := by
      rw [fetchWindow_end s (Nat.le_of_eq hpc.symm)]
      rfl
    exact ⟨_, _, step_of_decode_error hrun hdecode, haltFaulted_run .., haltFaulted_fault ..,
      congrArg Cause.outOfBoundsMemoryAccess hpc, hpc, rfl⟩

/-- Settles O10: the window begins with the unmapped byte, and the decoder rejects it whatever follows. -/
theorem unmappedOpcodeFaults : Obligations.UnmappedOpcodeFaults := by
  intro s hrun hpc hunmapped
  obtain ⟨tl, htl⟩ := fetchWindow_head s hpc
  have hdecode : decode (fetchWindow s) = .error (.invalidOpcode (s.mem.read s.pc)) := by
    rw [htl]
    exact decodeWith_of_unmapped hunmapped tl
  exact ⟨_, _, step_of_decode_error hrun hdecode, haltFaulted_run .., haltFaulted_fault .., rfl, rfl, rfl⟩

/-- An instruction that does not fit has its first missing byte at 256: the first operand's at 255, the second's at 254. -/
theorem operandFetchFaults (m : Mnemonic) : OperandFetchFaults m := by
  intro s hrun hpc hop hlen
  have hm := lookupOpcode_fetched hop
  have hle : m.length ≤ 3 := length_le m
  rcases fetchWindow_cases s hpc with ⟨hp, -⟩ | ⟨hp, hw⟩ | ⟨hp, hw⟩
  · omega
  · rw [hp] at hm
    rw [step_of_decode_error hrun (hw ▸ decodeWith_noSecondOperand hm (by omega) _), fetchFault, hp]
    exact raisesFault_haltFaulted ..
  · rw [hp] at hm
    rw [step_of_decode_error hrun (hw ▸ decodeWith_noFirstOperand hm (by omega)), fetchFault, hp]
    exact raisesFault_haltFaulted ..

/-- Settles O11: an instruction that does not fit faults at 256; one that fits is decoded from its own bytes. -/
theorem operandFetchIsChecked : Obligations.OperandFetchIsChecked := by
  refine ⟨operandFetchFaults, fun m s hrun hop hlen => ?_⟩
  have hm := lookupOpcode_fetched hop
  have hfit : m.length ≤ 256 - s.pc := by omega
  obtain ⟨rest, hdecode⟩ :=
    decodeWith_take_of_length_le hm (s.mem.read (s.pc + 1)) (s.mem.read (s.pc + 2)) hfit
  rw [← fetchWindow_eq_take] at hdecode
  exact step_of_decode_ok hrun hdecode

end Sys2Proof.Machine

/-! ## Load and store, and the frames of the register-writing instructions (41_load_store.md; 43_alu.md section 1) -/

namespace Sys2Proof.Machine

/-! ### `exec`, by the instruction's effect and by its register operands -/

theorem exec_of_effect_ok {i : Instr} {s u : State} (h : effect spIndex i s = .ok u) :
    exec i s = .next (advance i u) := by
  have heffect : effect defaultParams.spIndex i s = .ok u := h
  rw [exec_eq, execWith, heffect]
  rfl

theorem validRegister_eq_true {b : Byte} (h : b.toNat ≤ 7) : validRegister b = true :=
  decide_eq_true (by omega)

theorem validRegister_eq_false {b : Byte} (h : 7 < b.toNat) : validRegister b = false :=
  decide_eq_false (by omega)

theorem firstInvalidRegister_of_first {i : Instr} {a : Byte} {bs : List Byte} (hi : i.registerOperands = a :: bs)
    (ha : 7 < a.toNat) : i.firstInvalidRegister = some a := by
  simp [Instr.firstInvalidRegister, hi, validRegister_eq_false ha]

theorem firstInvalidRegister_of_second {i : Instr} {a b : Byte} (hi : i.registerOperands = [a, b])
    (ha : a.toNat ≤ 7) (hb : 7 < b.toNat) : i.firstInvalidRegister = some b := by
  simp [Instr.firstInvalidRegister, hi, validRegister_eq_true ha, validRegister_eq_false hb]

theorem raisesBeforeEffect_of_firstInvalidRegister {i : Instr} {b : Byte} (h : i.firstInvalidRegister = some b)
    (s : State) : RaisesBeforeEffect (.invalidOperandRegister b) s (exec i s) :=
  ⟨_, exec_invalidRegister i s b h, rfl⟩

theorem exec_ldi_regByte (r : Reg) (b : Byte) (s : State) :
    exec (.ldi (regByte r) b) s = .next { writeReg s r b with pc := s.pc + 3 } := by
  have heffect : effect spIndex (.ldi (regByte r) b) s = .ok (writeReg s r b) := by
    simp [effect, ldiEffect, immOperand]
  rw [exec_of_effect_ok heffect, advance_three rfl, writeReg_pc]

theorem exec_st_regByte (r q : Reg) (s : State) :
    exec (.st (regByte r) (regByte q)) s =
      .next { s with mem := s.mem.write (readReg s r).toNat (readReg s q), pc := s.pc + 3 } := by
  have heffect : effect spIndex (.st (regByte r) (regByte q)) s =
      .ok { s with mem := s.mem.write (readReg s r).toNat (readReg s q) } := by
    simp [effect, stEffect]
  rw [exec_of_effect_ok heffect, advance_three rfl]

/-! ### What taking a fault leaves unchanged (60_exceptions.md R169, R170) -/

@[simp] theorem readReg_takeFault (c : Cause) (i : Instr) (s : State) (q : Reg) :
    readReg (takeFault c i s) q = readReg s q := rfl

@[simp] theorem takeFault_mem (c : Cause) (i : Instr) (s : State) : (takeFault c i s).mem = s.mem := rfl

@[simp] theorem takeFault_out (c : Cause) (i : Instr) (s : State) : (takeFault c i s).out = s.out := rfl

theorem sameMemory_takeFault (c : Cause) (i : Instr) (s : State) : SameMemory s (takeFault c i s) := fun x => by
  rw [takeFault_mem]

theorem sameRunOrFaulted_takeFault (c : Cause) (i : Instr) (s : State) : SameRunOrFaulted s (takeFault c i s) :=
  .inr ⟨_, _, _, _, takeFault_eq c i s⟩

/-! ### What a completed instruction of each kind did -/

/-- A completed register-writing instruction wrote its first operand's register, moved past itself, and did nothing else. -/
theorem Completes.registerResult_inv {sp : Reg} {i : Instr} {s t : State} (h : Completes sp i s t)
    (hi : i.mnemonic ∈ [.ldi, .not, .add, .sub, .mul, .mod, .and, .or, .xor, .shl, .shr]) :
    ∃ r v, i.operands[0]? = some (regByte r) ∧ t = { writeReg s r v with pc := s.pc + 3 } := by
  cases h with
  | ldi r _ | not r _ | add r _ | sub r _ | mul r _ | mod r _ | and r _ | or r _ | xor r _ | shl r _ | shr r _ =>
    exact ⟨r, _, rfl, rfl⟩
  | _ => simp [Instr.mnemonic] at hi

/-- A completed ST stored one register at the address in the other, moved past itself, and did nothing else. -/
theorem Completes.st_inv {sp : Reg} {a b : Byte} {s t : State} (h : Completes sp (.st a b) s t) :
    ∃ r q, a = regByte r ∧ b = regByte q ∧
      t = { s with mem := s.mem.write (readReg s r).toNat (readReg s q), pc := s.pc + 3 } := by
  cases h with
  | st r q => exact ⟨r, q, rfl, rfl, rfl⟩

/-! ### The obligations -/

/-- Settles O28: the effect of LDI on a register byte, and the faults that every instruction shares. -/
theorem ldiLoadsTheImmediate : Obligations.LdiLoadsTheImmediate :=
  ⟨exec_ldi_regByte,
    fun _ _ s ha => raisesBeforeEffect_of_firstInvalidRegister (firstInvalidRegister_of_first rfl ha) s,
    operandFetchFaults .ldi, fun _ _ => rfl⟩

/-- Settles O29: the effect of ST on two register bytes, whose write cannot fault because its address is a byte, and the
faults that every instruction shares. -/
theorem stStoresTheRegister : Obligations.StStoresTheRegister :=
  ⟨exec_st_regByte,
    fun _ _ s ha => raisesBeforeEffect_of_firstInvalidRegister (firstInvalidRegister_of_first rfl ha) s,
    fun _ _ s ha hb => raisesBeforeEffect_of_firstInvalidRegister (firstInvalidRegister_of_second rfl ha hb) s,
    operandFetchFaults .st, fun _ _ => rfl⟩

/-- Settles O52: a completed instruction wrote the register its first operand names, so no other one; a fault leaves every
register alone. -/
theorem registerResultFrame : Obligations.RegisterResultFrame := by
  intro i s t hi hexec
  rcases exec_next_cases hexec with hdone | ⟨c, -, rfl⟩
  · obtain ⟨r, v, hr, rfl⟩ := hdone.registerResult_inv hi
    refine ⟨fun q hq => ?_, ⟨rfl, rfl, rfl⟩, fun _ => rfl, rfl, .inl ⟨rfl, rfl⟩⟩
    have hne : q ≠ r := by
      rintro rfl
      exact hq hr
    exact readReg_writeReg_ne s v hne
  · exact ⟨fun q _ => readReg_takeFault c i s q, sameFlags_takeFault c i s, sameMemory_takeFault c i s,
      takeFault_out c i s, sameRunOrFaulted_takeFault c i s⟩

/-- Settles O54: a completed ST had two valid operands and wrote one cell, and every other cell reads back by the law of
reading after writing; a fault stores nothing. -/
theorem stFrame : Obligations.StFrame := by
  intro a b s t hexec
  rcases exec_next_cases hexec with hdone | ⟨c, -, rfl⟩
  · obtain ⟨r, q, rfl, rfl, rfl⟩ := hdone.st_inv
    refine ⟨fun _ _ => rfl, ⟨rfl, rfl, rfl⟩, rfl, .inl ⟨rfl, rfl⟩, fun r' hr' x hx => ?_, fun c hc => ?_,
      fun hfault => absurd rfl hfault⟩
    · obtain rfl : r = r' := by simpa using hr'
      simp [hx]
    · simp at hc
  · have hmem := sameMemory_takeFault c (.st a b) s
    exact ⟨fun q _ => readReg_takeFault c (.st a b) s q, sameFlags_takeFault c _ s, takeFault_out c _ s,
      sameRunOrFaulted_takeFault c _ s, fun _ _ x _ => hmem x, fun _ _ => hmem, fun _ => hmem⟩

end Sys2Proof.Machine

/-! ## Output, and the frames of the instructions that write no register and no memory (42_output.md;
40_dispatch_and_halt.md R90; 43_alu.md R131; 44_jumps.md) -/

namespace Sys2Proof.Machine

/-! ### `exec` of PRN and PRA on a register byte -/

theorem exec_prn_regByte (r : Reg) (s : State) :
    exec (.prn (regByte r)) s = .next { s with out := s.out ++ [.dec (readReg s r)], pc := s.pc + 2 } := by
  have heffect : effect spIndex (.prn (regByte r)) s = .ok (emit s (.dec (readReg s r))) := by
    simp [effect, prnEffect]
  rw [exec_of_effect_ok heffect, advance_two (by simp [Instr.mnemonic])]
  rfl

theorem exec_pra_regByte (r : Reg) (s : State) :
    exec (.pra (regByte r)) s = .next { s with out := s.out ++ [.chr (readReg s r)], pc := s.pc + 2 } := by
  have heffect : effect spIndex (.pra (regByte r)) s = .ok (emit s (.chr (readReg s r))) := by
    simp [effect, praEffect]
  rw [exec_of_effect_ok heffect, advance_two (by simp [Instr.mnemonic])]
  rfl

/-! ### What a completed instruction did to the trace, to `run`, to the registers and to memory -/

/-- A completed instruction left the trace alone, or is a PRN or a PRA and appended its register's value (42_output.md
R112). -/
theorem Completes.out_cases {sp : Reg} {i : Instr} {s t : State} (h : Completes sp i s t) :
    t.out = s.out ∨ ∃ r, (i = .prn (regByte r) ∧ t.out = s.out ++ [.dec (readReg s r)]) ∨
      (i = .pra (regByte r) ∧ t.out = s.out ++ [.chr (readReg s r)]) := by
  cases h with
  | prn r => exact .inr ⟨r, .inl ⟨rfl, rfl⟩⟩
  | pra r => exact .inr ⟨r, .inr ⟨rfl, rfl⟩⟩
  | _ => exact .inl rfl

theorem Completes.out_eq {sp : Reg} {i : Instr} {s t : State} (h : Completes sp i s t) (hprn : i.mnemonic ≠ .prn)
    (hpra : i.mnemonic ≠ .pra) : t.out = s.out := by
  obtain hout | ⟨r, ⟨rfl, -⟩ | ⟨rfl, -⟩⟩ := h.out_cases
  · exact hout
  · exact absurd rfl hprn
  · exact absurd rfl hpra

/-- Only a completed HLT changes `run` (40_dispatch_and_halt.md R90). -/
theorem Completes.run_eq {sp : Reg} {i : Instr} {s t : State} (h : Completes sp i s t) (hi : i.mnemonic ≠ .hlt) :
    t.run = s.run := by
  cases h
  case hlt => exact absurd rfl hi
  all_goals rfl

/-- A completed CMP, PRN, PRA, jump or HLT wrote no register and no memory. -/
theorem Completes.nonWriting_inv {sp : Reg} {i : Instr} {s t : State} (h : Completes sp i s t)
    (hi : i.mnemonic ∈ [.cmp, .prn, .pra, .jeq, .jne, .jmp, .hlt]) : t.regs = s.regs ∧ t.mem = s.mem := by
  cases h with
  | cmp | prn | pra | jeq | jne | jmp | hlt => exact ⟨rfl, rfl⟩
  | _ => simp [Instr.mnemonic] at hi

/-- HLT raises no fault: it has no register operand and no fault of its own. -/
theorem Raises.mnemonic_ne_hlt {sp : Reg} {i : Instr} {s : State} {c : Cause} (h : Raises sp i s c) :
    i.mnemonic ≠ .hlt := by
  cases h with
  | register _ b _ hb =>
    cases i with
    | hlt => simp [Instr.firstInvalidRegister, Instr.registerOperands] at hb
    | _ => simp [Instr.mnemonic]
  | _ => simp [Instr.mnemonic]

/-! ### The obligations -/

/-- Settles O30: the effect of PRN on a register byte, and the faults that every instruction shares. -/
theorem prnEmitsTheNumber : Obligations.PrnEmitsTheNumber :=
  ⟨exec_prn_regByte,
    fun _ s ha => raisesBeforeEffect_of_firstInvalidRegister (firstInvalidRegister_of_first rfl ha) s,
    operandFetchFaults .prn, fun _ => rfl⟩

/-- Settles O31: the effect of PRA on a register byte, and the faults that every instruction shares. -/
theorem praEmitsTheCode : Obligations.PraEmitsTheCode :=
  ⟨exec_pra_regByte,
    fun _ s ha => raisesBeforeEffect_of_firstInvalidRegister (firstInvalidRegister_of_first rfl ha) s,
    operandFetchFaults .pra⟩

/-- Settles O24: a step ends in a fault, which leaves the trace alone, or in a completed instruction, and only a
completed PRN or PRA appends to the trace. -/
theorem onlyPrnAndPraEmit : Obligations.OnlyPrnAndPraEmit := by
  intro s t h
  obtain ⟨-, ⟨i, rest, hdecode, hexec⟩ | ⟨c, op, a, b, rfl, -⟩⟩ := step_cases h
  · rcases exec_next_cases hexec with hdone | ⟨c, -, rfl⟩
    · obtain hout | ⟨r, ⟨rfl, hout⟩ | ⟨rfl, hout⟩⟩ := hdone.out_cases
      · exact .inl hout
      · exact .inr ⟨r, rest, .inl ⟨hdecode, hout⟩⟩
      · exact .inr ⟨r, rest, .inr ⟨hdecode, hout⟩⟩
    · exact .inl (takeFault_out c i s)
  · exact .inl (haltFaulted_out c op a b s)

/-- Settles O53: a completed instruction of these kept what the lemmas on `Completes` say; a fault changed only `run`
and `fault`, and HLT raises none. -/
theorem nonWritingFrame : Obligations.NonWritingFrame := by
  intro i s t hi hexec
  rcases exec_next_cases hexec with hdone | ⟨c, hraises, rfl⟩
  · obtain ⟨hregs, hmem⟩ := hdone.nonWriting_inv hi
    exact ⟨fun q _ => by rw [readReg, hregs, readReg], fun x => by rw [hmem], hdone.sameFlags, hdone.out_eq,
      fun hne => .inl ⟨hdone.run_eq hne, hdone.fault_eq⟩, fun _ => hdone.fault_eq⟩
  · exact ⟨fun q _ => readReg_takeFault c i s q, sameMemory_takeFault c i s, fun _ => sameFlags_takeFault c i s,
      fun _ _ => takeFault_out c i s, fun _ => sameRunOrFaulted_takeFault c i s,
      fun hhlt => absurd hhlt hraises.mnemonic_ne_hlt⟩

end Sys2Proof.Machine

/-! ## The ALU: the arithmetic and bitwise operations, and the comparison (43_alu.md R121 to R127, R131) -/

namespace Sys2Proof.Machine

/-! ### What the operations compute -/

theorem aluAdd_toNat (va vb : Byte) : (aluAdd va vb).toNat = (va.toNat + vb.toNat) % 256 :=
  narrow_natCast (va.toNat + vb.toNat)

theorem aluSub_toNat (va vb : Byte) : ((aluSub va vb).toNat : Int) = ((va.toNat : Int) - vb.toNat) % 256 :=
  narrow_toInt (va.toNat - vb.toNat)

theorem aluMul_toNat (va vb : Byte) : (aluMul va vb).toNat = va.toNat * vb.toNat % 256 :=
  narrow_natCast (va.toNat * vb.toNat)

theorem aluAnd_getLsbD (va vb : Byte) (k : Nat) : (aluAnd va vb).getLsbD k = (va.getLsbD k && vb.getLsbD k) :=
  BitVec.getLsbD_and

theorem aluOr_getLsbD (va vb : Byte) (k : Nat) : (aluOr va vb).getLsbD k = (va.getLsbD k || vb.getLsbD k) :=
  BitVec.getLsbD_or

theorem aluXor_getLsbD (va vb : Byte) (k : Nat) : (aluXor va vb).getLsbD k = (va.getLsbD k != vb.getLsbD k) :=
  BitVec.getLsbD_xor

/-! ### What the comparison writes -/

theorem compareFlags_flagE_iff (va vb : Byte) (s : State) :
    (compareFlags va vb s).flagE = true ↔ va.toNat = vb.toNat := decide_eq_true_iff

theorem compareFlags_flagL_iff (va vb : Byte) (s : State) :
    (compareFlags va vb s).flagL = true ↔ va.toNat < vb.toNat := decide_eq_true_iff

theorem compareFlags_flagG_iff (va vb : Byte) (s : State) :
    (compareFlags va vb s).flagG = true ↔ vb.toNat < va.toNat := decide_eq_true_iff

/-- The three flags are the three cases of the order of the two values, of which exactly one holds. -/
theorem exactlyOneFlag_compareFlags (va vb : Byte) (s : State) : ExactlyOneFlag (compareFlags va vb s) := by
  unfold ExactlyOneFlag AtMostOneFlag compareFlags
  rcases Nat.lt_trichotomy va.toNat vb.toNat with hlt | heq | hgt
  · simp [hlt, hlt.ne, hlt.le]
  · simp [heq]
  · simp [hgt, hgt.ne', hgt.le]

/-! ### `exec` of the instructions with two register operands -/

/-- An instruction whose effect is that of a two-operand operation writes the operation's result to the first operand's
register, moves past its own three bytes, and does nothing else (43_alu.md R120). -/
theorem exec_of_aluBinary {i : Instr} {r q : Reg} {f : Byte → Byte → Except Cause Byte} {s : State} {v : Byte}
    (hlen : i.mnemonic.length = 3) (heffect : effect spIndex i s = aluBinary (regByte r) (regByte q) f s)
    (hv : f (readReg s r) (readReg s q) = .ok v) :
    exec i s = .next { writeReg s r v with pc := s.pc + 3 } := by
  have hdone : effect spIndex i s = .ok (writeReg s r v) := by
    rw [heffect, aluBinary_regs, hv]
    rfl
  rw [exec_of_effect_ok hdone, advance_three hlen, writeReg_pc]

/-- The same of an operation that is defined on every pair of values. -/
theorem exec_of_aluBinary_ok {i : Instr} {r q : Reg} {op : Byte → Byte → Byte} {s : State}
    (hlen : i.mnemonic.length = 3)
    (heffect : effect spIndex i s = aluBinary (regByte r) (regByte q) (fun va vb => .ok (op va vb)) s) :
    exec i s = .next { writeReg s r (op (readReg s r) (readReg s q)) with pc := s.pc + 3 } :=
  exec_of_aluBinary hlen heffect rfl

theorem exec_add_regByte (r q : Reg) (s : State) : exec (.add (regByte r) (regByte q)) s =
    .next { writeReg s r (aluAdd (readReg s r) (readReg s q)) with pc := s.pc + 3 } :=
  exec_of_aluBinary_ok rfl rfl

theorem exec_sub_regByte (r q : Reg) (s : State) : exec (.sub (regByte r) (regByte q)) s =
    .next { writeReg s r (aluSub (readReg s r) (readReg s q)) with pc := s.pc + 3 } :=
  exec_of_aluBinary_ok rfl rfl

theorem exec_mul_regByte (r q : Reg) (s : State) : exec (.mul (regByte r) (regByte q)) s =
    .next { writeReg s r (aluMul (readReg s r) (readReg s q)) with pc := s.pc + 3 } :=
  exec_of_aluBinary_ok rfl rfl

theorem exec_and_regByte (r q : Reg) (s : State) : exec (.and (regByte r) (regByte q)) s =
    .next { writeReg s r (aluAnd (readReg s r) (readReg s q)) with pc := s.pc + 3 } :=
  exec_of_aluBinary_ok rfl rfl

theorem exec_or_regByte (r q : Reg) (s : State) : exec (.or (regByte r) (regByte q)) s =
    .next { writeReg s r (aluOr (readReg s r) (readReg s q)) with pc := s.pc + 3 } :=
  exec_of_aluBinary_ok rfl rfl

theorem exec_xor_regByte (r q : Reg) (s : State) : exec (.xor (regByte r) (regByte q)) s =
    .next { writeReg s r (aluXor (readReg s r) (readReg s q)) with pc := s.pc + 3 } :=
  exec_of_aluBinary_ok rfl rfl

theorem exec_cmp_regByte (r q : Reg) (s : State) : exec (.cmp (regByte r) (regByte q)) s =
    .next { compareFlags (readReg s r) (readReg s q) s with pc := s.pc + 3 } := by
  have heffect : effect spIndex (.cmp (regByte r) (regByte q)) s =
      .ok (compareFlags (readReg s r) (readReg s q) s) := by
    simp [effect, cmpEffect]
  rw [exec_of_effect_ok heffect, advance_three rfl, compareFlags_pc]

/-! ### The obligations -/

/-- Settles O33: the effect of ADD on two register bytes, and what masking the sum to 8 bits gives. -/
theorem addWrapsModulo256 : Obligations.AddWrapsModulo256 :=
  ⟨fun r q s => ⟨_, aluAdd_toNat (readReg s r) (readReg s q), exec_add_regByte r q s⟩, fun _ _ => rfl⟩

/-- Settles O34: the effect of SUB on two register bytes, and what masking the signed difference gives. -/
theorem subWrapsModulo256 : Obligations.SubWrapsModulo256 :=
  ⟨fun r q s => ⟨_, aluSub_toNat (readReg s r) (readReg s q), exec_sub_regByte r q s⟩, fun _ _ => rfl⟩

/-- Settles O35: the effect of MUL on two register bytes, and what masking the product to 8 bits gives. -/
theorem mulKeepsTheLowByte : Obligations.MulKeepsTheLowByte :=
  ⟨fun r q s => ⟨_, aluMul_toNat (readReg s r) (readReg s q), exec_mul_regByte r q s⟩, fun _ _ => rfl⟩

/-- Settles O38: the effects of AND, OR and XOR on two register bytes, and each bit of their results. -/
theorem bitwiseActOnEachBit : Obligations.BitwiseActOnEachBit := fun r q s =>
  ⟨⟨_, fun k _ => aluAnd_getLsbD (readReg s r) (readReg s q) k, exec_and_regByte r q s, rfl⟩,
    ⟨_, fun k _ => aluOr_getLsbD (readReg s r) (readReg s q) k, exec_or_regByte r q s, rfl⟩,
    ⟨_, fun k _ => aluXor_getLsbD (readReg s r) (readReg s q) k, exec_xor_regByte r q s, rfl⟩⟩

/-- Settles O41: CMP writes the comparison's flags, and moves past itself; each flag is one case of the order of the
two values. -/
theorem cmpComparesUnsigned : Obligations.CmpComparesUnsigned :=
  ⟨fun r q s => ⟨_, exec_cmp_regByte r q s, rfl, compareFlags_flagE_iff _ _ s, compareFlags_flagL_iff _ _ s,
    compareFlags_flagG_iff _ _ s, exactlyOneFlag_compareFlags _ _ s⟩, fun _ _ => rfl⟩

end Sys2Proof.Machine

/-! ## The jumps (44_jumps.md R140 to R143) -/

namespace Sys2Proof.Machine

/-! ### `exec` of the jumps on a register byte -/

theorem jumpIf_of_taken {c : Bool} (h : c = true) (r : Reg) (s : State) :
    jumpIf c r s = { s with pc := (readReg s r).toNat } := by
  rw [h]
  rfl

theorem jumpIf_of_not_taken {c : Bool} (h : c = false) (r : Reg) (s : State) :
    jumpIf c r s = { s with pc := s.pc + 2 } := by
  rw [h]
  rfl

/-- The loop adds nothing to `pc` after an owns-pc instruction (40_dispatch_and_halt.md R87). -/
theorem advance_of_ownsPc {i : Instr} (h : (descriptor i.mnemonic).ownsPc = true) (t : State) : advance i t = t := by
  simp [advance, h]

/-- An owns-pc instruction ends in the state its effect leaves. -/
theorem exec_of_effect_ok_of_ownsPc {i : Instr} {s u : State} (howns : (descriptor i.mnemonic).ownsPc = true)
    (h : effect spIndex i s = .ok u) : exec i s = .next u := by
  rw [exec_of_effect_ok h, advance_of_ownsPc howns]

theorem exec_jeq_regByte (r : Reg) (s : State) : exec (.jeq (regByte r)) s = .next (jumpIf s.flagE r s) :=
  exec_of_effect_ok_of_ownsPc rfl (by simp [effect, jeqEffect])

theorem exec_jne_regByte (r : Reg) (s : State) : exec (.jne (regByte r)) s = .next (jumpIf (!s.flagE) r s) :=
  exec_of_effect_ok_of_ownsPc rfl (by simp [effect, jneEffect])

theorem exec_jmp_regByte (r : Reg) (s : State) :
    exec (.jmp (regByte r)) s = .next { s with pc := (readReg s r).toNat } :=
  exec_of_effect_ok_of_ownsPc rfl (by simp [effect, jmpEffect])

/-! ### The obligations -/

/-- Settles O43: JEQ ends in the conditional jump on E, which is taken when E is set and falls through when E is clear. -/
theorem jeqJumpsWhenEqual : Obligations.JeqJumpsWhenEqual := by
  refine ⟨fun r s hset => ?_, fun r s hclear => ?_, fun _ => rfl⟩
  · rw [exec_jeq_regByte, jumpIf_of_taken hset]
  · rw [exec_jeq_regByte, jumpIf_of_not_taken hclear]

/-- Settles O44: JNE ends in the conditional jump on the negation of E, which is taken when E is clear and falls through
when E is set. -/
theorem jneJumpsWhenNotEqual : Obligations.JneJumpsWhenNotEqual := by
  refine ⟨fun r s hclear => ?_, fun r s hset => ?_, fun _ => rfl⟩
  · rw [exec_jne_regByte, jumpIf_of_taken (by simp [hclear])]
  · rw [exec_jne_regByte, jumpIf_of_not_taken (by simp [hset])]

/-- Settles O45: the effect of JMP on a register byte, and the fault that every instruction with a register operand
shares. -/
theorem jmpJumps : Obligations.JmpJumps :=
  ⟨exec_jmp_regByte,
    fun _ s ha => raisesBeforeEffect_of_firstInvalidRegister (firstInvalidRegister_of_first rfl ha) s,
    fun _ => rfl⟩

end Sys2Proof.Machine

/-! ## DivisionByZero, the fault of MOD alone (60_exceptions.md R166) -/

namespace Sys2Proof.Machine

@[simp] theorem takeFault_run (c : Cause) (i : Instr) (s : State) : (takeFault c i s).run = .halted := rfl

@[simp] theorem takeFault_fault (c : Cause) (i : Instr) (s : State) : (takeFault c i s).fault =
    some ⟨c, s.pc, some (opcodeMap i.mnemonic), i.operands[0]?, i.operands[1]?⟩ := rfl

theorem exec_of_effect_error {i : Instr} {s : State} {c : Cause} (h : effect spIndex i s = .error c) :
    exec i s = .next (takeFault c i s) := by
  have heffect : effect defaultParams.spIndex i s = .error c := h
  rw [exec_eq, execWith, heffect]
  rfl

theorem aluMod_of_zero {vb : Byte} (h : vb.toNat = 0) (va : Byte) : aluMod va vb = .error .divisionByZero :=
  if_pos h

/-- MOD on two register bytes takes its fault when the divisor is zero (43_alu.md R124). -/
theorem exec_mod_regByte_of_zero {q : Reg} {s : State} (h : (readReg s q).toNat = 0) (r : Reg) :
    exec (.mod (regByte r) (regByte q)) s = .next (takeFault .divisionByZero (.mod (regByte r) (regByte q)) s) := by
  have heffect : effect spIndex (.mod (regByte r) (regByte q)) s = .error .divisionByZero := by
    rw [effect, modEffect, aluBinary_regs, aluMod_of_zero h]
    rfl
  exact exec_of_effect_error heffect

/-- Of the instructions, only a MOD whose divisor's register holds zero raises DivisionByZero. -/
theorem Raises.divisionByZero_inv {sp : Reg} {i : Instr} {s : State} (h : Raises sp i s .divisionByZero) :
    ∃ r q, i = .mod (regByte r) (regByte q) ∧ (readReg s q).toNat = 0 := by
  cases h with
  | mod r q _ hzero => exact ⟨r, q, rfl, hzero⟩

/-- Settles O37: MOD by zero takes the fault, which leaves every register alone. Conversely the record of a step that began
without one was written by an instruction's fault, so by MOD's, or by a fault of the fetch, whose causes are two others. -/
theorem divisionByZeroBelongsToMod : Obligations.DivisionByZeroBelongsToMod := by
  refine ⟨fun r q s hzero => ⟨_, _, exec_mod_regByte_of_zero hzero r, takeFault_run .., takeFault_fault .., rfl,
    readReg_takeFault _ _ s⟩, fun s t f hstep hclean hfault hcause => ?_⟩
  obtain ⟨-, ⟨i, rest, hdecode, hexec⟩ | ⟨c, op, a, b, rfl, -, hfetch⟩⟩ := step_cases hstep
  · rcases exec_next_cases hexec with hdone | ⟨c, hraises, rfl⟩
    · rw [hdone.fault_eq, hclean] at hfault
      cases hfault
    · obtain rfl : _ = f := by simpa using hfault
      obtain rfl : c = .divisionByZero := hcause
      obtain ⟨r, q, rfl, hzero⟩ := hraises.divisionByZero_inv
      exact ⟨r, q, rest, hdecode, hzero⟩
  · obtain rfl : _ = f := by simpa using hfault
    obtain rfl : c = .divisionByZero := hcause
    obtain ⟨x, hx⟩ | ⟨x, hx, -⟩ := hfetch <;> cases hx

end Sys2Proof.Machine

/-! ## The decoder and the encoder are inverse to each other (30_encoding.md R60, R61, R66, R74) -/

namespace Sys2Proof.Laws.Shape

/-- Every instruction has the shape its descriptor says. -/
theorem statement : ∀ i : Instr, Statement i
  | .hlt => hlt
  | .ldi a b => ldi a b
  | .st a b => st a b
  | .prn a => prn a
  | .pra a => pra a
  | .add a b => add a b
  | .sub a b => sub a b
  | .mul a b => mul a b
  | .and a b => and a b
  | .or a b => or a b
  | .xor a b => xor a b
  | .shl a b => shl a b
  | .shr a b => shr a b
  | .mod a b => mod a b
  | .not a b => not a b
  | .cmp a b => cmp a b
  | .jeq a => jeq a
  | .jne a => jne a
  | .jmp a => jmp a
  | .push a => push a
  | .pop a => pop a
  | .call a => call a
  | .ret => ret

end Sys2Proof.Laws.Shape

namespace Sys2Proof

/-! ### An instruction is its mnemonic and its operand bytes -/

theorem instrOf_operandBytes (i : Instr) :
    instrOf i.mnemonic (i.operands[0]?.getD 0) (i.operands[1]?.getD 0) = i :=
  (Laws.Shape.statement i).1

theorem operands_length (i : Instr) : i.operands.length = (descriptor i.mnemonic).operandCount :=
  (Laws.Shape.statement i).2.1

theorem operandCount_le (m : Mnemonic) : (descriptor m).operandCount ≤ 2 := by
  have hle : 1 + (descriptor m).operandCount ≤ 3 := length_le m
  omega

/-- An instruction made of as many operand bytes as its mnemonic has keeps them all. -/
theorem instrOf_operands {m : Mnemonic} {ops : List Byte} (h : ops.length = (descriptor m).operandCount) :
    (instrOf m (ops[0]?.getD 0) (ops[1]?.getD 0)).operands = ops := by
  have hle := operandCount_le m
  match ops with
  | [] | [a] | [a, b] => cases m <;> cases h <;> rfl
  | a :: b :: c :: tl => simp at h; omega

/-! ### What decodes, and to what -/

/-- An opcode byte with as many operand bytes as its mnemonic has decodes to the instruction they make. -/
theorem decodeWith_of_operands {om : OpcodeMap} {op : Byte} {m : Mnemonic} (hm : lookupOpcode om op = some m)
    {ops : List Byte} (h : ops.length = (descriptor m).operandCount) (rest : List Byte) :
    decodeWith om (op :: ops ++ rest) = .ok (instrOf m (ops[0]?.getD 0) (ops[1]?.getD 0), rest) := by
  have hle := operandCount_le m
  match ops with
  | [] | [a] | [a, b] => simp [decodeWith, hm, ← h]
  | a :: b :: c :: tl => simp at h; omega

/-- Bytes that decode are an opcode byte, as many operand bytes as its mnemonic has, and the rest. -/
theorem decodeWith_ok_inv {om : OpcodeMap} {bytes rest : List Byte} {i : Instr}
    (h : decodeWith om bytes = .ok (i, rest)) :
    ∃ m ops, ops.length = (descriptor m).operandCount ∧ bytes = om m :: ops ++ rest ∧
      i = instrOf m (ops[0]?.getD 0) (ops[1]?.getD 0) := by
  unfold decodeWith at h
  split at h
  · cases h
  next op tl =>
    split at h
    · cases h
    next m hm =>
      obtain rfl := lookupOpcode_sound hm
      have hle := operandCount_le m
      split at h
      next hcount =>
        cases h
        exact ⟨m, [], by simp [hcount], rfl, rfl⟩
      next a _ hcount =>
        cases h
        exact ⟨m, [a], by simp [hcount], rfl, rfl⟩
      next a b _ hcount =>
        cases h
        exact ⟨m, [a, b], by simp; omega, rfl, rfl⟩
      · cases h
      · cases h

/-! ### The length of an instruction, by mnemonic -/

/-- The lengths of 30_encoding.md R69. -/
theorem length_eq (m : Mnemonic) : m.length =
    if m ∈ [Mnemonic.hlt, .ret] then 1
    else if m ∈ [Mnemonic.prn, .pra, .jeq, .jne, .jmp, .push, .pop, .call] then 2 else 3 := by
  cases m <;> rfl

theorem encodeWith_length (om : OpcodeMap) (i : Instr) : (encodeWith om i).length = i.mnemonic.length := by
  simp [encodeWith, Mnemonic.length, operands_length, Nat.add_comm]

/-! ### The obligations -/

/-- Settles O1: under a legal map the opcode byte resolves to the mnemonic, and the operand bytes are as many as its
descriptor says and make the instruction again. -/
theorem decodeEncodeUnderEveryLegalMap : Obligations.DecodeEncodeUnderEveryLegalMap := by
  intro om hlegal i rest
  rw [encodeWith, decodeWith_of_operands (lookupOpcode_complete hlegal i.mnemonic) (operands_length i),
    instrOf_operandBytes]

/-- Settles O2: the bytes that decoded are an opcode byte and operand bytes, and the instruction keeps both. -/
theorem encodeDecodeUnderEveryMap : Obligations.EncodeDecodeUnderEveryMap := by
  intro om bytes rest i h
  obtain ⟨m, ops, hlen, rfl, rfl⟩ := decodeWith_ok_inv h
  rw [encodeWith, instrOf_mnemonic, instrOf_operands hlen]

/-- Settles O3: what decoded is the encoding followed by the rest, and an encoding has the length of its mnemonic. -/
theorem decodeConsumesTheLength : Obligations.DecodeConsumesTheLength := by
  intro bytes rest i h
  rw [← encodeDecodeUnderEveryMap opcodeMap bytes rest i h, List.length_append, encodeWith_length, length_eq,
    Nat.add_comm]

/-- Settles O4: each word is the encoding of its instruction under the default map, which is legal. -/
theorem tableWordsDecode : Obligations.TableWordsDecode :=
  ⟨opcodeMap_legal, rfl, rfl, rfl, rfl, rfl, rfl, rfl⟩

end Sys2Proof

/-! ## The step: the decoded instruction, and the step of checked reads (40_dispatch_and_halt.md R81) -/

namespace Sys2Proof.Machine

/-- Inside the space an unmapped opcode byte is rejected, whatever follows it (40_dispatch_and_halt.md R83). -/
theorem decodeWith_fetchWindow_of_unmapped {om : OpcodeMap} {s : State} (hpc : s.pc < 256)
    (h : ∀ m, om m ≠ s.mem.read s.pc) :
    decodeWith om (fetchWindow s) = .error (.invalidOpcode (s.mem.read s.pc)) := by
  obtain ⟨tl, htl⟩ := fetchWindow_head s hpc
  rw [htl]
  exact decodeWith_of_unmapped h tl

/-! ### Central operand validation -/

/-- Part 3a finds the first byte above 7 among the operand bytes of kind `reg`. -/
theorem firstInvalidOperand_eq_find (kinds : List OperandKind) (bytes : List Byte) :
    firstInvalidOperand kinds bytes =
      (((kinds.zip bytes).filter (fun p => p.1 == .reg)).map Prod.snd).find? (fun b => !validRegister b) := by
  induction kinds generalizing bytes with
  | nil => rfl
  | cons k ks ih =>
    cases bytes with
    | nil => rfl
    | cons b bs =>
      rw [firstInvalidOperand, ih]
      by_cases hk : k = .reg
      · by_cases hb : 7 < b.toNat
        · simp [hk, hb, validRegister_eq_false hb]
        · simp [hk, hb, validRegister_eq_true (Nat.le_of_not_lt hb)]
      · simp [hk]

/-- Central validation of an instruction's operand bytes finds its first invalid register operand. -/
theorem firstInvalidOperand_operands (i : Instr) :
    firstInvalidOperand (descriptor i.mnemonic).operands i.operands = i.firstInvalidRegister := by
  rw [firstInvalidOperand_eq_find, Instr.firstInvalidRegister, (Laws.Shape.statement i).2.2]

/-- Validating centrally and then executing is executing: the instruction's own check raises the same fault with the same
record (log 17). -/
theorem validateAndExecute_eq_exec {m : Mnemonic} {ops : List Byte} (h : ops.length = (descriptor m).operandCount)
    (s : State) : validateAndExecute (opcodeMap m) m ops s = exec (instrOf m (ops[0]?.getD 0) (ops[1]?.getD 0)) s := by
  have hfirst := firstInvalidOperand_operands (instrOf m (ops[0]?.getD 0) (ops[1]?.getD 0))
  rw [instrOf_mnemonic, instrOf_operands h] at hfirst
  rw [validateAndExecute, hfirst]
  split
  next bad hbad => rw [exec_invalidRegister _ _ _ hbad, takeFault_eq, instrOf_mnemonic, instrOf_operands h]
  next => rfl

/-- At 255 there is no first operand byte (40_dispatch_and_halt.md R84). -/
theorem step_of_no_first_operand {s : State} {m : Mnemonic} (hrun : s.run = .running)
    (hm : lookupOpcode opcodeMap (s.mem.read s.pc) = some m) (hlen : 1 < m.length) (hpc : s.pc = 255) :
    step s = .next (haltFaulted (.outOfBoundsMemoryAccess (s.pc + 1)) (some (s.mem.read s.pc)) none none s) := by
  have hdecode : decode (fetchWindow s) = .error (.noFirstOperand (s.mem.read s.pc)) := by
    rw [fetchWindow_eq_take, hpc]
    exact decodeWith_noFirstOperand (hpc ▸ hm) hlen
  rw [step_of_decode_error hrun hdecode, fetchFault]

/-- At 254 there is no second operand byte (40_dispatch_and_halt.md R84). -/
theorem step_of_no_second_operand {s : State} {m : Mnemonic} (hrun : s.run = .running)
    (hm : lookupOpcode opcodeMap (s.mem.read s.pc) = some m) (hlen : 2 < m.length) (hpc : s.pc = 254) :
    step s = .next (haltFaulted (.outOfBoundsMemoryAccess (s.pc + 2)) (some (s.mem.read s.pc))
      (some (s.mem.read (s.pc + 1))) none s) := by
  have hdecode : decode (fetchWindow s) = .error (.noSecondOperand (s.mem.read s.pc) (s.mem.read (s.pc + 1))) := by
    rw [fetchWindow_eq_take, hpc]
    exact decodeWith_noSecondOperand (hpc ▸ hm) hlen _
  rw [step_of_decode_error hrun hdecode, fetchFault]

/-- A mapped opcode byte: the checked reads fetch the operand bytes that exist, and the step agrees with them whether the
instruction fits or not. -/
theorem step_eq_stepByChecks_of_mapped {s : State} {m : Mnemonic} (hrun : s.run = .running) (hpc : s.pc < 256)
    (hop : s.mem.read s.pc = opcodeMap m) : step s = stepByChecks s := by
  have hm := lookupOpcode_fetched hop
  have hread : memRead s s.pc = .ok (s.mem.read s.pc) := if_pos hpc
  have hfits := operandFetchIsChecked.2 m s hrun hop
  have hpos := length_pos m
  have hle : m.length ≤ 3 := length_le m
  obtain h1 | h2 | h3 : m.length = 1 ∨ m.length = 2 ∨ m.length = 3 := by omega
  · have hcount := operandCount_eq h1
    have hvalid := validateAndExecute_eq_exec (ops := []) hcount.symm s
    simp only [stepByChecks, hread, hm, hcount, if_true]
    rw [hfits (by omega), instrOf_of_length_one h1, hop, hvalid]
    rfl
  · have hcount := operandCount_eq h2
    rcases memRead_cases s (s.pc + 1) with ⟨ha, hreada⟩ | ⟨ha, hreada⟩
    · have hvalid := validateAndExecute_eq_exec (ops := [s.mem.read (s.pc + 1)]) hcount.symm s
      simp only [stepByChecks, hread, hm, hcount, hreada]
      rw [hfits (by omega), instrOf_of_length_two h2, hop]
      exact hvalid.symm
    · simp [stepByChecks, hread, hm, hcount, hreada, step_of_no_first_operand hrun hm (by omega) (by omega)]
  · have hcount := operandCount_eq h3
    rcases memRead_cases s (s.pc + 1) with ⟨ha, hreada⟩ | ⟨ha, hreada⟩
    · rcases memRead_cases s (s.pc + 2) with ⟨hb, hreadb⟩ | ⟨hb, hreadb⟩
      · have hvalid := validateAndExecute_eq_exec
          (ops := [s.mem.read (s.pc + 1), s.mem.read (s.pc + 2)]) hcount.symm s
        simp only [stepByChecks, hread, hm, hcount, hreada, hreadb]
        rw [hfits (by omega), hop]
        exact hvalid.symm
      · simp [stepByChecks, hread, hm, hcount, hreada, hreadb,
          step_of_no_second_operand hrun hm (by omega) (by omega)]
    · simp [stepByChecks, hread, hm, hcount, hreada, step_of_no_first_operand hrun hm (by omega) (by omega)]

/-- Settles O6: past the space there is no opcode byte, an unmapped byte is rejected whatever follows it, and for a mapped
one the checked reads are those of the fetch window. -/
theorem stepIsTheStepOfCheckedReads : Obligations.StepIsTheStepOfCheckedReads := by
  intro s hrun
  rcases memRead_cases s s.pc with ⟨hpc, hread⟩ | ⟨hpc, hread⟩
  · cases hm : lookupOpcode opcodeMap (s.mem.read s.pc) with
    | some m => exact step_eq_stepByChecks_of_mapped hrun hpc (lookupOpcode_sound hm).symm
    | none =>
      have hdecode : decode (fetchWindow s) = .error (.invalidOpcode (s.mem.read s.pc)) :=
        decodeWith_fetchWindow_of_unmapped hpc (lookupOpcode_none.mp hm)
      simp [stepByChecks, hread, hm, step_of_decode_error hrun hdecode, fetchFault]
  · have hdecode : decode (fetchWindow s) = .error .noOpcode := by
      rw [fetchWindow_end s hpc]
      rfl
    simp [stepByChecks, hread, step_of_decode_error hrun hdecode, fetchFault]

/-- Settles O5: a Running machine executes what the fetch window decodes to. -/
theorem stepRunsTheDecodedInstruction : Obligations.StepRunsTheDecodedInstruction :=
  fun _ _ _ hrun hdecode => step_of_decode_ok hrun hdecode

/-- Settles O8: an instruction's effect is concluded with a next state, whether it raised a fault or not. -/
theorem execAlwaysAnswersNext : Obligations.ExecAlwaysAnswersNext := exec_next

end Sys2Proof.Machine

/-! ## What a step can do, for any parameters: it completes the decoded instruction or takes a precise fault
(40_dispatch_and_halt.md R81; 60_exceptions.md R169, R170) -/

namespace Sys2Proof.Machine

/-! ### Address 256 -/

/-- The only address an instruction itself reports out of bounds is a CALL's return address (45_stack_call.md R153). -/
theorem Raises.outOfBounds_inv {sp : Reg} {i : Instr} {s : State} {x : Nat}
    (h : Raises sp i s (.outOfBoundsMemoryAccess x)) : i.mnemonic = .call ∧ 254 ≤ s.pc ∧ x = s.pc + 2 := by
  cases h with
  | callBounds _ _ hpc => exact ⟨rfl, hpc, rfl⟩

/-- A fault of a decoded instruction reports no address out of bounds but 256: the instruction lies inside the space. -/
theorem Raises.outOfBounds_address {sp : Reg} {i : Instr} {s : State} {x : Nat}
    (h : Raises sp i s (.outOfBoundsMemoryAccess x)) (hfits : s.pc + i.mnemonic.length ≤ 256) : x = 256 := by
  obtain ⟨hcall, hpc, rfl⟩ := h.outOfBounds_inv
  have hlen : i.mnemonic.length = 2 := by rw [hcall]; rfl
  omega

/-! ### The two ends of a step -/

/-- A fault with this record was taken in `s` and nothing else changed; the record names the address and the opcode byte of
the step, and an address out of bounds is 256. -/
structure TakesPreciseFault (s t : State) (f : FaultRecord) : Prop where
  state_eq : t = { s with run := .halted, fault := some f }
  pc_eq : f.pc = s.pc
  opcode_eq : f.opcode = if s.pc < 256 then some (s.mem.read s.pc) else none
  address_eq : ∀ x, f.cause = .outOfBoundsMemoryAccess x → s.pc ≤ 256 → x = 256

/-- Everything a step can do under any parameters. -/
theorem stepWith_cases {P : Params} {s t : State} (h : stepWith P s = .next t) : s.run = .running ∧
    ((∃ i rest, decodeWith P.opcodeMap (fetchWindow s) = .ok (i, rest) ∧ Completes P.spIndex i s t) ∨
      ∃ f, TakesPreciseFault s t f) := by
  obtain ⟨hrun, ⟨i, rest, hdecode, hexec⟩ | ⟨c, op, a, b, rfl, hop, hc⟩⟩ := stepBy_cases h
  · refine ⟨hrun, ?_⟩
    rcases execWith_next_cases hexec with hdone | ⟨c, hraises, rfl⟩
    · exact .inl ⟨i, rest, hdecode, hdone⟩
    · obtain ⟨hpc, hread, hfits⟩ := decode_fetchWindow hdecode
      refine .inr ⟨_, rfl, rfl, ?_, ?_⟩
      · rw [if_pos hpc, hread]
      · rintro x rfl -
        exact hraises.outOfBounds_address hfits
  · refine ⟨hrun, .inr ⟨_, rfl, rfl, hop, ?_⟩⟩
    rintro x rfl hpc
    obtain ⟨y, hy⟩ | ⟨y, hy, hy256⟩ := hc <;> cases hy
    exact hy256 hpc

/-- A step from a state without a fault record to a state with one took that fault. -/
theorem step_takesPreciseFault {s t : State} {f : FaultRecord} (h : step s = .next t) (hclean : s.fault = none)
    (hfault : t.fault = some f) : TakesPreciseFault s t f := by
  rw [step_eq] at h
  obtain ⟨-, ⟨i, rest, -, hdone⟩ | ⟨g, hg⟩⟩ := stepWith_cases h
  · rw [hdone.fault_eq, hclean] at hfault
    cases hfault
  · obtain rfl : g = f := by simpa [hg.state_eq] using hfault
    exact hg

/-! ### HLT, and the sequential advance -/

/-- A completed HLT halted and did nothing else (40_dispatch_and_halt.md R90). -/
theorem Completes.hlt_inv {sp : Reg} {i : Instr} {s t : State} (h : Completes sp i s t) (hi : i.mnemonic = .hlt) :
    t = { s with run := .halted } := by
  cases h
  case hlt => rfl
  all_goals cases hi

/-- A completed instruction that is not HLT and not owns-pc moved `pc` past itself (R87). -/
theorem Completes.pc_eq_of_sequential {sp : Reg} {i : Instr} {s t : State} (h : Completes sp i s t)
    (hi : i.mnemonic ∉ [.hlt, .jeq, .jne, .jmp, .call, .ret]) : t.pc = s.pc + i.mnemonic.length := by
  cases h with
  | hlt | jeq | jne | jmp | call | ret => simp [Instr.mnemonic] at hi
  | _ => rfl

theorem length_of_sequential {m : Mnemonic} (hm : m ∉ [Mnemonic.hlt, .jeq, .jne, .jmp, .call, .ret]) :
    m.length = if m ∈ [Mnemonic.prn, .pra, .push, .pop] then 2 else 3 := by
  revert hm
  cases m <;> decide

theorem ownsPc_of_not_sequential {m : Mnemonic} (hm : m ∈ [Mnemonic.hlt, .jeq, .jne, .jmp, .call, .ret])
    (hne : m ≠ .hlt) : (descriptor m).ownsPc = true := by
  revert hm hne
  cases m <;> decide

/-- Part 5 of the step does nothing for HLT and for the owns-pc instructions (R87). -/
theorem advance_of_not_sequential {i : Instr} (hi : i.mnemonic ∈ [.hlt, .jeq, .jne, .jmp, .call, .ret]) (s : State) :
    advance i s = s := by
  by_cases hhlt : i.mnemonic = .hlt
  · exact if_pos hhlt
  · exact advance_of_ownsPc (ownsPc_of_not_sequential hi hhlt) s

/-! ### The obligations -/

/-- Settles O12: register bytes select their register, the first one above 7 is every instruction's fault, and an
instruction without one is well-formed. -/
theorem invalidRegisterOperandFaults : Obligations.InvalidRegisterOperandFaults := by
  refine ⟨fun r => ⟨regByte_toNat r, regOperand_regByte r⟩, fun i s b hb => ⟨?_, ?_⟩, fun i => ?_⟩
  · have hinvalid : validRegister b = false := by simpa using List.find?_some hb
    simpa [validRegister] using hinvalid
  · exact raisesBeforeEffect_of_firstInvalidRegister hb s
  · simp [Instr.firstInvalidRegister, Instr.WellFormed]

/-- Settles O13: a step that wrote a record took a precise fault. -/
theorem everyFaultIsPrecise : Obligations.EveryFaultIsPrecise := by
  intro s t f h hclean hfault
  have hprecise := step_takesPreciseFault h hclean hfault
  exact ⟨hprecise.state_eq, hprecise.pc_eq, hprecise.opcode_eq⟩

/-- Settles O14: of the completed instructions only HLT changes `run`, and nothing else; a fault changes `run` and `fault`
alone. -/
theorem haltOnlyByHltOrFault : Obligations.HaltOnlyByHltOrFault := by
  intro s t h hhalted
  rw [step_eq] at h
  obtain ⟨hrun, ⟨i, rest, hdecode, hdone⟩ | ⟨f, hf⟩⟩ := stepWith_cases h
  · have hi : i.mnemonic = .hlt := by
      by_contra hne
      rw [hdone.run_eq hne, hrun] at hhalted
      cases hhalted
    obtain ⟨hpc, hread, -⟩ := decode_fetchWindow hdecode
    exact .inl ⟨hpc, hi ▸ hread, hdone.hlt_inv hi⟩
  · exact .inr ⟨f, hf.state_eq⟩

/-- Settles O15: the fault of a step whose `pc` is at most 256 reports no other address. -/
theorem outOfBoundsAddressIsAlways256 : Obligations.OutOfBoundsAddressIsAlways256 := by
  intro s t f x hinv h hclean hfault hcause
  obtain ⟨hpc, -⟩ := hinv
  exact (step_takesPreciseFault h hclean hfault).address_eq x hcause hpc

/-- Settles O16: an instruction that ends without a fault completed, and by its constructor moved `pc` past itself or is
one of those for which the advance does nothing. -/
theorem sequentialAdvance : Obligations.SequentialAdvance := by
  refine ⟨fun i s t hexec hclean hfault hi => ?_, fun i s hi => advance_of_not_sequential hi s⟩
  rcases exec_next_cases hexec with hdone | ⟨c, -, rfl⟩
  · rw [hdone.pc_eq_of_sequential hi, length_of_sequential hi]
  · cases hfault

end Sys2Proof.Machine

/-! ## The invariants of the state, and its values after reset and load (10_state.md R36, R37;
70_reset_and_hazards.md R180 to R183) -/

namespace Sys2Proof.Machine

/-! ### Flags -/

theorem AtMostOneFlag.of_sameFlags {s t : State} (h : AtMostOneFlag s) (hsame : SameFlags s t) : AtMostOneFlag t := by
  obtain ⟨hE, hL, hG⟩ := hsame
  rwa [AtMostOneFlag, hE, hL, hG]

theorem ExactlyOneFlag.of_sameFlags {s t : State} (h : ExactlyOneFlag s) (hsame : SameFlags s t) :
    ExactlyOneFlag t := by
  refine ⟨h.1.of_sameFlags hsame, ?_⟩
  obtain ⟨hE, hL, hG⟩ := hsame
  rw [hE, hL, hG]
  exact h.2

/-! ### What a completed instruction keeps of each invariant -/

/-- An instruction inside the space ends with `pc` at a register's or a cell's byte, or right after itself at most. -/
theorem Completes.pc_le {sp : Reg} {i : Instr} {s t : State} (h : Completes sp i s t)
    (hfits : s.pc + i.mnemonic.length ≤ 256) : t.pc ≤ 256 := by
  have hbyte (b : Byte) : b.toNat ≤ 256 := Nat.le_of_lt b.isLt
  cases h with
  | hlt => exact Nat.le_of_succ_le hfits
  | jeq | jne =>
    unfold jumpIf
    split
    · exact hbyte _
    · exact hfits
  | jmp | call | ret => exact hbyte _
  | _ => exact hfits

/-- Every address an instruction writes is a byte, so memory keeps its canonical form. -/
theorem Completes.mem_wf {sp : Reg} {i : Instr} {s t : State} (h : Completes sp i s t) (hwf : s.mem.wf = true) :
    t.mem.wf = true := by
  cases h with
  | st | push | call => exact Memory.wf_write hwf (BitVec.isLt _) _
  | _ => exact hwf

theorem Completes.atMostOneFlag {sp : Reg} {i : Instr} {s t : State} (h : Completes sp i s t)
    (hflags : AtMostOneFlag s) : AtMostOneFlag t := by
  by_cases hi : i.mnemonic = .cmp
  · obtain ⟨r, q, -, rfl⟩ := h.cmp_inv hi
    exact (exactlyOneFlag_compareFlags (readReg s r) (readReg s q) s).1
  · exact hflags.of_sameFlags (h.sameFlags hi)

theorem Completes.stateInv {sp : Reg} {i : Instr} {s t : State} (h : Completes sp i s t) (hrun : s.run = .running)
    (hfits : s.pc + i.mnemonic.length ≤ 256) (hinv : StateInv s) : StateInv t := by
  obtain ⟨-, hwf, hfault, hflags⟩ := hinv
  refine ⟨h.pc_le hfits, h.mem_wf hwf, fun hsome => ?_, h.atMostOneFlag hflags⟩
  rw [h.fault_eq] at hsome
  rw [hfault hsome] at hrun
  cases hrun

/-- A fault halts, and leaves alone what the other invariants speak of. -/
theorem TakesPreciseFault.stateInv {s t : State} {f : FaultRecord} (h : TakesPreciseFault s t f) (hinv : StateInv s) :
    StateInv t := by
  obtain ⟨hpc, hwf, -, hflags⟩ := hinv
  rw [h.state_eq]
  exact ⟨hpc, hwf, fun _ => rfl, hflags⟩

/-! ### Reset and load -/

theorem stateInv_resetAt (sp : Reg) (init : Byte) : StateInv (State.resetAt sp init) :=
  ⟨Nat.zero_le _, Memory.wf_nil, nofun, rfl, rfl, rfl⟩

/-- A load that is not refused writes memory over the reset state, in its canonical form, and nothing else. -/
theorem loadOver_eq_some {reset s : State} {image : List Byte} (h : loadOver reset image = some s) :
    s = { reset with mem := Memory.storeBytes reset.mem Config.loadBase image } := by
  unfold loadOver at h
  split at h
  · exact (Option.some.inj h).symm
  · cases h

theorem stateInv_loadOver {reset s : State} {image : List Byte} (h : loadOver reset image = some s)
    (hinv : StateInv reset) : StateInv s := by
  obtain ⟨hpc, hwf, hfault, hflags⟩ := hinv
  rw [loadOver_eq_some h]
  exact ⟨hpc, Memory.wf_storeBytes image hwf Config.loadBase, hfault, hflags⟩

/-! ### The obligations -/

/-- Settles O57: reset has the invariants, the load keeps them, and so does either end of a step. -/
theorem everyConfigurationKeepsTheInvariant : Obligations.EveryConfigurationKeepsTheInvariant := by
  intro P
  have hreset : StateInv (resetWith P) := stateInv_resetAt P.spIndex P.spInit
  refine ⟨hreset, fun image s hload => ⟨stateInv_loadOver hload hreset, ?_⟩, fun s t hinv hstep => ?_⟩
  · rw [loadOver_eq_some hload]
    exact ⟨rfl, rfl⟩
  · obtain ⟨hrun, ⟨i, rest, hdecode, hdone⟩ | ⟨f, hf⟩⟩ := stepWith_cases hstep
    · obtain ⟨-, -, hfits⟩ := decode_fetchWindow hdecode
      exact hdone.stateInv hrun hfits hinv
    · exact hf.stateInv hinv

/-- Settles O17: the step is that of the default parameters. -/
theorem stepKeepsTheInvariant : Obligations.StepKeepsTheInvariant := by
  intro s t hinv hstep
  obtain ⟨-, -, hkeeps⟩ := everyConfigurationKeepsTheInvariant defaultParams
  exact hkeeps s t hinv (step_eq s ▸ hstep)

/-- Settles O18: the reset state is that of the default parameters. -/
theorem resetHasTheInvariant : Obligations.ResetHasTheInvariant := stateInv_resetAt spIndex spInit

/-- Settles O19: the load is that of the default parameters. -/
theorem launchStateHasTheInvariant : Obligations.LaunchStateHasTheInvariant := by
  obtain ⟨-, hlaunch, -⟩ := everyConfigurationKeepsTheInvariant defaultParams
  exact hlaunch

/-- Settles O22: a completed CMP leaves the flags of a comparison, of which exactly one is set; any other step that changes
a flag changes all three to those of a comparison. -/
theorem exactlyOneFlagOnceCompared : Obligations.ExactlyOneFlagOnceCompared := by
  refine ⟨fun r q s t hexec => ?_, fun s t hone hstep => ?_⟩
  · rw [exec_cmp_regByte] at hexec
    cases hexec
    exact exactlyOneFlag_compareFlags (readReg s r) (readReg s q) s
  · obtain hsame | ⟨r, q, -, -, hE, hL, hG⟩ := onlyCmpWritesFlags s t hstep
    · exact hone.of_sameFlags hsame
    · have hcompared := exactlyOneFlag_compareFlags (readReg s r) (readReg s q) s
      exact hcompared.of_sameFlags ⟨hE, hL, hG⟩

end Sys2Proof.Machine

/-! ## The register file, the reset values, the launch memory, and the canonical form (10_state.md R21, R36;
20_memory.md R40; 70_reset_and_hazards.md R182, R183) -/

namespace Sys2Proof.Machine

/-! ### Registers -/

theorem readReg_writeReg (s : State) (r q : Reg) (v : Byte) :
    readReg (writeReg s r v) q = if q = r then v else readReg s q := by
  by_cases h : q = r
  · rw [if_pos h, h, readReg_writeReg_self]
  · rw [if_neg h, readReg_writeReg_ne s v h]

theorem readReg_resetAt (sp : Reg) (init : Byte) (r : Reg) :
    readReg (State.resetAt sp init) r = if r = sp then init else 0 := by
  simp [readReg, State.resetAt, Vector.getElem_set, Fin.ext_iff, eq_comm]

/-! ### A canonical memory lists exactly the cells that read other than as unlisted -/

theorem Memory.read_eq_unlisted {m : Memory} {a : Nat} (h : ∀ c ∈ m, c.1 ≠ a) : m.read a = Memory.unlisted := by
  induction m with
  | nil => rfl
  | cons c m ih =>
    rw [Memory.read_cons, if_neg (h c List.mem_cons_self), ih fun d hd => h d (List.mem_cons_of_mem c hd)]

/-- A cell of a list with strictly rising addresses is the one its address reads as. -/
theorem Memory.read_of_mem {m : Memory} (h : List.Pairwise (fun c d : Host.Cell => c.1 < d.1) m) {c : Host.Cell}
    (hc : c ∈ m) : m.read c.1 = c.2 := by
  induction m with
  | nil => cases hc
  | cons d m ih =>
    obtain ⟨hd, hm⟩ := List.pairwise_cons.mp h
    rw [Memory.read_cons]
    rcases List.mem_cons.mp hc with rfl | hc
    · rw [if_pos rfl]
    · rw [if_neg (hd c hc).ne, ih hm hc]

theorem Memory.mem_iff_read {m : Memory} (hwf : m.wf = true) (c : Host.Cell) :
    c ∈ m ↔ c.1 < Config.memSize ∧ c.2 ≠ Memory.unlisted ∧ m.read c.1 = c.2 := by
  obtain ⟨hrising, hcells⟩ := (Memory.wf_iff m).mp hwf
  refine ⟨fun hc => ?_, fun ⟨_, hne, hread⟩ => ?_⟩
  · obtain ⟨hlt, hne⟩ := hcells c hc
    exact ⟨hlt, hne, Memory.read_of_mem hrising hc⟩
  · by_contra hc
    have hunlisted : m.read c.1 = Memory.unlisted := by
      refine Memory.read_eq_unlisted fun d hd heq => hc ?_
      have hd2 : d.2 = c.2 := by rw [← Memory.read_of_mem hrising hd, heq, hread]
      rwa [← Prod.ext heq hd2]
    exact hne (hread.symm.trans hunlisted)

/-! ### The obligations -/

/-- Settles O20: reset puts a value other than 0 into the stack pointer, and the value the spec states into every other
component. -/
theorem resetValues : Obligations.ResetValues := by
  refine ⟨fun r hr => ?_, ?_, rfl, rfl, rfl, rfl, fun _ => rfl, rfl, rfl, rfl⟩
  · rw [State.reset, readReg_resetAt, if_neg hr]
  · rw [spValue, State.reset, readReg_resetAt, if_pos rfl]
    decide

/-- Settles O21: a longer image is refused, and of any other the law of stored bytes says what every cell holds. -/
theorem loadPlacesTheImage : Obligations.LoadPlacesTheImage := by
  intro image
  refine ⟨fun hlong => if_neg (Nat.not_le.mpr hlong), fun hfits => ⟨_, if_pos hfits, fun a => ?_⟩⟩
  rw [Memory.read_storeBytes]
  simp only [Config.loadBase, Config.memSize, Nat.zero_add, Nat.sub_zero]
  by_cases ha : a < image.length
  · rw [if_pos (by omega)]
    rfl
  · rw [if_neg (by omega), List.getElem?_eq_none (Nat.le_of_not_lt ha)]
    rfl

/-- Settles O26: two canonical memories that read alike list the same cells, in the one strictly rising order. -/
theorem canonicalMemory : Obligations.CanonicalMemory := by
  intro m n hm hn hread
  have hmem : ∀ c, c ∈ m ↔ c ∈ n := by
    intro c
    rw [Memory.mem_iff_read hm, Memory.mem_iff_read hn]
    refine and_congr_right fun hlt => ?_
    rw [hread c.1 hlt]
  have : Std.Irrefl (fun c d : Host.Cell => c.1 < d.1) := ⟨fun c => Nat.lt_irrefl c.1⟩
  have : Std.Antisymm (fun c d : Host.Cell => c.1 < d.1) := ⟨fun c d hcd hdc => absurd hdc (Nat.lt_asymm hcd)⟩
  obtain ⟨hmrising, -⟩ := (Memory.wf_iff m).mp hm
  obtain ⟨hnrising, -⟩ := (Memory.wf_iff n).mp hn
  exact hmrising.eq_of_mem_iff hnrising hmem

/-- Settles O27: the register file is a vector, and the stack pointer is read from it. -/
theorem registerFileReadsBack : Obligations.RegisterFileReadsBack :=
  ⟨readReg_writeReg, fun _ => rfl⟩

/-- Settles O32: the effect of HLT, which gets no advance and leaves the fault record alone. -/
theorem hltHaltsCleanly : Obligations.HltHaltsCleanly :=
  fun _ => ⟨exec_of_effect_ok rfl, fun hclean => ⟨rfl, hclean⟩⟩

end Sys2Proof.Machine

/-! ## The ALU: remainder, complement and shifts, and the identities (43_alu.md R124, R128 to R130, R133) -/

namespace Sys2Proof.Machine

/-! ### What the operations compute -/

theorem aluMod_of_ne_zero {vb : Byte} (h : vb.toNat ≠ 0) (va : Byte) :
    aluMod va vb = .ok (narrow ((va.toNat : Int) % vb.toNat)) := if_neg h

theorem narrow_toNat_of_lt {n : Nat} (h : n < 256) : (narrow (n : Int)).toNat = n := by
  rw [narrow_natCast, Nat.mod_eq_of_lt h]

theorem aluMod_toNat (va vb : Byte) :
    (narrow ((va.toNat : Int) % vb.toNat)).toNat = va.toNat % vb.toNat :=
  narrow_toNat_of_lt (Nat.lt_of_le_of_lt (Nat.mod_le ..) va.isLt)

theorem aluNot_toNat (va : Byte) : (aluNot va).toNat = 255 - va.toNat := by
  have hlt := va.isLt
  have hint : ((aluNot va).toNat : Int) = (255 - (va.toNat : Int)) % 256 := narrow_toInt (255 - va.toNat)
  omega

theorem aluShl_toNat (va vb : Byte) : (aluShl va vb).toNat = va.toNat * 2 ^ vb.toNat % 256 :=
  narrow_natCast (va.toNat * 2 ^ vb.toNat)

theorem aluShr_toNat (va vb : Byte) : (aluShr va vb).toNat = va.toNat / 2 ^ vb.toNat :=
  narrow_toNat_of_lt (Nat.lt_of_le_of_lt (Nat.div_le_self ..) va.isLt)

/-- From an amount of 8 on, the product is a multiple of 256. -/
theorem aluShl_of_eight_le {vb : Byte} (h : 8 ≤ vb.toNat) (va : Byte) : aluShl va vb = 0 := by
  apply BitVec.eq_of_toNat_eq
  rw [aluShl_toNat]
  exact Nat.mod_eq_zero_of_dvd (Dvd.dvd.mul_left (Nat.pow_dvd_pow 2 h) va.toNat)

/-- An amount whose power of two exceeds the value leaves nothing of it. -/
theorem aluShr_of_lt {va vb : Byte} (h : va.toNat < 2 ^ vb.toNat) : aluShr va vb = 0 := by
  apply BitVec.eq_of_toNat_eq
  rw [aluShr_toNat]
  exact Nat.div_eq_of_lt h

theorem aluShr_of_eight_le {vb : Byte} (h : 8 ≤ vb.toNat) (va : Byte) : aluShr va vb = 0 :=
  aluShr_of_lt (Nat.lt_of_lt_of_le va.isLt (Nat.pow_le_pow_right Nat.two_pos h))

/-! ### The identities of 43_alu.md section 6, on values -/

theorem aluSub_self (v : Byte) : aluSub v v = 0 := by
  rw [aluSub, Int.sub_self]
  rfl

theorem aluXor_self (v : Byte) : aluXor v v = 0 := BitVec.xor_self

theorem aluShr_self (v : Byte) : aluShr v v = 0 := aluShr_of_lt Nat.lt_two_pow_self

theorem aluNot_aluNot (v : Byte) : aluNot (aluNot v) = v := by
  apply BitVec.eq_of_toNat_eq
  have hlt := v.isLt
  rw [aluNot_toNat, aluNot_toNat]
  omega

theorem aluSub_aluAdd (va vb : Byte) : aluSub (aluAdd va vb) vb = va := by
  apply BitVec.eq_of_toNat_eq
  have hlt := va.isLt
  have hsub := aluSub_toNat (aluAdd va vb) vb
  rw [aluAdd_toNat] at hsub
  omega

/-! ### `exec` of the instructions on register bytes -/

theorem exec_mod_regByte_of_ne_zero {q : Reg} {s : State} (h : (readReg s q).toNat ≠ 0) (r : Reg) :
    exec (.mod (regByte r) (regByte q)) s =
      .next { writeReg s r (narrow (((readReg s r).toNat : Int) % (readReg s q).toNat)) with pc := s.pc + 3 } :=
  exec_of_aluBinary rfl rfl (aluMod_of_ne_zero h _)

theorem exec_not_regByte (r : Reg) (b : Byte) (s : State) : exec (.not (regByte r) b) s =
    .next { writeReg s r (aluNot (readReg s r)) with pc := s.pc + 3 } := by
  have heffect : effect spIndex (.not (regByte r) b) s = .ok (writeReg s r (aluNot (readReg s r))) := by
    simp [effect, notEffect]
  rw [exec_of_effect_ok heffect, advance_three rfl, writeReg_pc]

theorem exec_shl_regByte (r q : Reg) (s : State) : exec (.shl (regByte r) (regByte q)) s =
    .next { writeReg s r (aluShl (readReg s r) (readReg s q)) with pc := s.pc + 3 } :=
  exec_of_aluBinary_ok rfl rfl

theorem exec_shr_regByte (r q : Reg) (s : State) : exec (.shr (regByte r) (regByte q)) s =
    .next { writeReg s r (aluShr (readReg s r) (readReg s q)) with pc := s.pc + 3 } :=
  exec_of_aluBinary_ok rfl rfl

/-! ### A register result undone by the next one -/

theorem readReg_writeReg_setPc (s : State) (r q : Reg) (v : Byte) (p : Nat) :
    readReg { writeReg s r v with pc := p } q = if q = r then v else readReg s q :=
  readReg_writeReg s r q v

/-- Writing a register's old value back, one instruction later, restores every component but `pc`. -/
theorem writeReg_restore {s : State} {r : Reg} {v w : Byte} (h : w = readReg s r) (p p' : Nat) :
    { writeReg { writeReg s r v with pc := p } r w with pc := p' } = { s with pc := p' } := by
  simp [h, writeReg, readReg]

/-! ### The obligations -/

/-- Settles O36: MOD writes the remainder, which is a byte as the dividend is, or takes its fault. -/
theorem modIsTheUnsignedRemainder : Obligations.ModIsTheUnsignedRemainder :=
  ⟨fun r q s hne => ⟨_, aluMod_toNat (readReg s r) (readReg s q), exec_mod_regByte_of_ne_zero hne r⟩,
    fun r _ _ hzero => exec_mod_regByte_of_zero hzero r⟩

/-- Settles O39: NOT's effect does not mention its second byte. -/
theorem notComplementsAndIgnoresItsSecondByte : Obligations.NotComplementsAndIgnoresItsSecondByte :=
  fun r b s => ⟨_, aluNot_toNat (readReg s r), exec_not_regByte r b s,
    (exec_not_regByte r b s).trans (exec_not_regByte r 0 s).symm⟩

/-- Settles O40: the effects of SHL and SHR, and what an amount of 8 or more leaves. -/
theorem shiftsUseTheWholeAmount : Obligations.ShiftsUseTheWholeAmount := fun r q s =>
  ⟨⟨_, aluShl_toNat (readReg s r) (readReg s q), fun h => aluShl_of_eight_le h _, exec_shl_regByte r q s⟩,
    ⟨_, aluShr_toNat (readReg s r) (readReg s q), fun h => aluShr_of_eight_le h _, exec_shr_regByte r q s⟩⟩

/-- Settles O42: the identities hold of the values, and an instruction that writes a register's old value back restores
the state but for `pc`. -/
theorem aluIdentities : Obligations.AluIdentities := by
  refine ⟨fun r s => ⟨?_, ?_, ?_⟩, fun r b c s t h => ?_, fun r q s t hrq h => ?_⟩
  · rw [exec_sub_regByte, aluSub_self]
  · rw [exec_xor_regByte, aluXor_self]
  · rw [exec_shr_regByte, aluShr_self]
  · rw [exec_not_regByte] at h
    cases h
    rw [exec_not_regByte, writeReg_restore]
    rw [readReg_writeReg_setPc, if_pos rfl, aluNot_aluNot]
  · rw [exec_add_regByte] at h
    cases h
    rw [exec_sub_regByte, writeReg_restore]
    rw [readReg_writeReg_setPc, readReg_writeReg_setPc, if_pos rfl, if_neg hrq.symm, aluSub_aluAdd]

end Sys2Proof.Machine

/-! ## The stack instructions, for any parameters (45_stack_call.md R150 to R156; 10_state.md R24) -/

namespace Sys2Proof.Machine

/-! ### `execWith`, by the instruction's effect -/

theorem execWith_of_effect_ok {P : Params} {i : Instr} {s u : State} (h : effect P.spIndex i s = .ok u) :
    execWith P i s = .next (advance i u) := by
  rw [execWith, h]
  rfl

theorem execWith_of_effect_error {P : Params} {i : Instr} {s : State} {c : Cause}
    (h : effect P.spIndex i s = .error c) : execWith P i s = .next (takeFaultWith P.opcodeMap c i s) := by
  rw [execWith, h]
  rfl

theorem execWith_of_effect_ok_of_ownsPc {P : Params} {i : Instr} {s u : State}
    (howns : (descriptor i.mnemonic).ownsPc = true) (h : effect P.spIndex i s = .ok u) :
    execWith P i s = .next u := by
  rw [execWith_of_effect_ok h, advance_of_ownsPc howns]

/-! ### The movement of the stack pointer, by where it goes -/

theorem moveSpAt_of_byte {v : Byte} {x : Int} (h : (v.toNat : Int) = x) (sp : Reg) (s : State) :
    moveSpAt sp s x = .ok (writeReg s sp v) := by
  have hlt := v.isLt
  rcases moveSpAt_cases sp s x with ⟨hx, -⟩ | ⟨hx, -⟩ | ⟨w, hw, hmove⟩
  · omega
  · omega
  · obtain rfl : w = v := BitVec.eq_of_toNat_eq (by omega)
    exact hmove

theorem moveSpAt_down {v : Byte} {n : Nat} (h : v.toNat + 1 = n) (sp : Reg) (s : State) :
    moveSpAt sp s (n - 1) = .ok (writeReg s sp v) :=
  moveSpAt_of_byte (by omega) sp s

theorem moveSpAt_up {v : Byte} {n : Nat} (h : v.toNat = n + 1) (sp : Reg) (s : State) :
    moveSpAt sp s (n + 1) = .ok (writeReg s sp v) :=
  moveSpAt_of_byte (by omega) sp s

theorem moveSpAt_underflow {n : Nat} (h : n = 0) (sp : Reg) (s : State) :
    moveSpAt sp s (n - 1) = .error .stackUnderflow :=
  if_pos (by omega)

theorem moveSpAt_overflow {n : Nat} (h : n = 255) (sp : Reg) (s : State) :
    moveSpAt sp s (n + 1) = .error .stackOverflow := by
  rw [moveSpAt, if_neg (by omega), if_pos (by omega)]

/-! ### CALL's return address -/

theorem returnAddress_of_byte {w : Byte} {p : Nat} (h : w.toNat = p + 2) : returnAddress p = .ok w := by
  have hlt := w.isLt
  have hw : narrow ((p + 2 : Nat) : Int) = w := by
    apply BitVec.eq_of_toNat_eq
    rw [narrow_toNat_of_lt (by omega), h]
  rw [returnAddress, if_neg (by omega), hw]

theorem returnAddress_of_out_of_bounds {p : Nat} (h : 254 ≤ p) :
    returnAddress p = .error (.outOfBoundsMemoryAccess (p + 2)) :=
  if_pos (by omega)

/-! ### PUSH, POP, CALL and RET -/

/-- Where POP looks for the stack pointer: in the byte it loaded, if that went there (45_stack_call.md R152). -/
theorem readReg_after_load (s : State) (r sp : Reg) (w : Byte) :
    readReg (writeReg s r w) sp = if r = sp then w else readReg s sp := by
  simp only [readReg_writeReg, eq_comm]

theorem execWith_push {P : Params} {v : Byte} {s : State} (h : v.toNat + 1 = (readReg s P.spIndex).toNat) (r : Reg) :
    execWith P (.push (regByte r)) s = .next { writeReg s P.spIndex v with
      mem := s.mem.write v.toNat (if r = P.spIndex then v else readReg s r)
      pc := s.pc + 2 } := by
  have hmove := moveSpAt_down h P.spIndex s
  have heffect : effect P.spIndex (.push (regByte r)) s = .ok { writeReg s P.spIndex v with
      mem := s.mem.write v.toNat (if r = P.spIndex then v else readReg s r) } := by
    simp [effect, pushEffect, hmove, readReg_writeReg]
  rw [execWith_of_effect_ok heffect, advance_two (by simp [Instr.mnemonic])]
  rfl

theorem execWith_push_underflow {P : Params} {s : State} (h : (readReg s P.spIndex).toNat = 0) (r : Reg) :
    execWith P (.push (regByte r)) s =
      .next (takeFaultWith P.opcodeMap .stackUnderflow (.push (regByte r)) s) := by
  have hmove := moveSpAt_underflow h P.spIndex s
  exact execWith_of_effect_error (by simp [effect, pushEffect, hmove])

theorem execWith_pop {P : Params} {r : Reg} {v w : Byte} {s : State}
    (hw : w = s.mem.read (readReg s P.spIndex).toNat)
    (h : v.toNat = (if r = P.spIndex then w else readReg s P.spIndex).toNat + 1) :
    execWith P (.pop (regByte r)) s = .next { writeReg (writeReg s r w) P.spIndex v with pc := s.pc + 2 } := by
  have hmove := moveSpAt_up (readReg_after_load s r P.spIndex w ▸ h) P.spIndex (writeReg s r w)
  have heffect : effect P.spIndex (.pop (regByte r)) s = .ok (writeReg (writeReg s r w) P.spIndex v) := by
    simp [effect, popEffect, ← hw, hmove]
  rw [execWith_of_effect_ok heffect, advance_two (by simp [Instr.mnemonic])]
  rfl

theorem execWith_pop_overflow {P : Params} {r : Reg} {w : Byte} {s : State}
    (hw : w = s.mem.read (readReg s P.spIndex).toNat)
    (h : (if r = P.spIndex then w else readReg s P.spIndex).toNat = 255) :
    execWith P (.pop (regByte r)) s =
      .next (takeFaultWith P.opcodeMap .stackOverflow (.pop (regByte r)) s) := by
  have hmove := moveSpAt_overflow (readReg_after_load s r P.spIndex w ▸ h) P.spIndex (writeReg s r w)
  exact execWith_of_effect_error (by simp [effect, popEffect, ← hw, hmove])

theorem execWith_call {P : Params} {v w : Byte} {s : State} (hv : v.toNat + 1 = (readReg s P.spIndex).toNat)
    (hw : w.toNat = s.pc + 2) (r : Reg) :
    execWith P (.call (regByte r)) s = .next { writeReg s P.spIndex v with
      mem := s.mem.write v.toNat w
      pc := (if r = P.spIndex then v else readReg s r).toNat } := by
  have hmove := moveSpAt_down hv P.spIndex s
  have hreturn := returnAddress_of_byte hw
  rw [← readReg_writeReg]
  exact execWith_of_effect_ok_of_ownsPc rfl (by simp [effect, callEffect, hmove, hreturn]; rfl)

theorem execWith_call_out_of_bounds {P : Params} {s : State} (h : 254 ≤ s.pc) (r : Reg) :
    execWith P (.call (regByte r)) s =
      .next (takeFaultWith P.opcodeMap (.outOfBoundsMemoryAccess (s.pc + 2)) (.call (regByte r)) s) := by
  have hreturn := returnAddress_of_out_of_bounds h
  exact execWith_of_effect_error (by simp [effect, callEffect, hreturn])

theorem execWith_call_underflow {P : Params} {s : State} (hpc : s.pc ≤ 253)
    (h : (readReg s P.spIndex).toNat = 0) (r : Reg) :
    execWith P (.call (regByte r)) s =
      .next (takeFaultWith P.opcodeMap .stackUnderflow (.call (regByte r)) s) := by
  have hreturn := returnAddress_of_byte (narrow_toNat_of_lt (n := s.pc + 2) (by omega))
  have hmove := moveSpAt_underflow h P.spIndex s
  exact execWith_of_effect_error (by simp [effect, callEffect, hreturn, hmove])

theorem execWith_ret {P : Params} {v : Byte} {s : State} (h : v.toNat = (readReg s P.spIndex).toNat + 1) :
    execWith P .ret s = .next { writeReg s P.spIndex v with
      pc := (s.mem.read (readReg s P.spIndex).toNat).toNat } := by
  have hmove := moveSpAt_up h P.spIndex s
  exact execWith_of_effect_ok_of_ownsPc rfl (by simp [effect, retEffect, hmove])

theorem execWith_ret_overflow {P : Params} {s : State} (h : (readReg s P.spIndex).toNat = 255) :
    execWith P .ret s = .next (takeFaultWith P.opcodeMap .stackOverflow .ret s) := by
  have hmove := moveSpAt_overflow h P.spIndex s
  exact execWith_of_effect_error (by simp [effect, retEffect, hmove])

/-- Settles O60: what reset puts into each register, and the lemma on each instruction and each of its bounds. -/
theorem stackUsesTheConfiguredRegister : Obligations.StackUsesTheConfiguredRegister := by
  intro P
  refine ⟨readReg_resetAt P.spIndex P.spInit, fun r _ _ hv => execWith_push hv r,
    fun r _ hzero => execWith_push_underflow hzero r, fun _ _ _ _ hw hv => execWith_pop hw hv,
    fun _ _ _ hw hfull => execWith_pop_overflow hw hfull, fun r _ _ _ hv hw => execWith_call hv hw r,
    fun r s hpc => ?_, fun r _ hpc hzero => execWith_call_underflow hpc hzero r, fun _ _ hv => execWith_ret hv,
    fun _ hfull => execWith_ret_overflow hfull⟩
  rw [execWith_call_out_of_bounds hpc.ge, hpc]

end Sys2Proof.Machine

/-! ## The stack instructions under the default parameters, and their two laws (45_stack_call.md sections 2 and 3) -/

namespace Sys2Proof.Machine

/-! ### Bytes next to a byte -/

theorem exists_byte {n : Nat} (h : n < 256) : ∃ v : Byte, v.toNat = n :=
  ⟨narrow n, narrow_toNat_of_lt h⟩

theorem exists_byte_above {b : Byte} (h : b.toNat ≠ 255) : ∃ v : Byte, v.toNat = b.toNat + 1 :=
  exists_byte (by have := b.isLt; omega)

theorem exists_byte_below {b : Byte} (h : b.toNat ≠ 0) : ∃ v : Byte, v.toNat + 1 = b.toNat := by
  obtain ⟨v, hv⟩ : ∃ v : Byte, v.toNat = b.toNat - 1 := exists_byte (by have := b.isLt; omega)
  exact ⟨v, by omega⟩

@[simp] theorem writeReg_writeReg_self (s : State) (r : Reg) (v w : Byte) :
    writeReg (writeReg s r v) r w = writeReg s r w := by
  simp [writeReg]

/-! ### `exec` of the stack instructions, where they complete -/

theorem exec_push_regByte {v : Byte} {s : State} (h : v.toNat + 1 = (spValue s).toNat) (r : Reg) :
    exec (.push (regByte r)) s = .next { writeReg s spIndex v with
      mem := s.mem.write v.toNat (if r = spIndex then v else readReg s r)
      pc := s.pc + 2 } :=
  (exec_eq _ s).trans (execWith_push (P := defaultParams) h r)

theorem exec_pop_regByte {r : Reg} {v w : Byte} {s : State} (hw : w = s.mem.read (spValue s).toNat)
    (h : v.toNat = (if r = spIndex then w else spValue s).toNat + 1) :
    exec (.pop (regByte r)) s = .next { writeReg (writeReg s r w) spIndex v with pc := s.pc + 2 } :=
  (exec_eq _ s).trans (execWith_pop (P := defaultParams) hw h)

theorem exec_pop_regByte_overflow {r : Reg} {w : Byte} {s : State} (hw : w = s.mem.read (spValue s).toNat)
    (h : (if r = spIndex then w else spValue s).toNat = 255) :
    exec (.pop (regByte r)) s = .next (takeFault .stackOverflow (.pop (regByte r)) s) :=
  (exec_eq _ s).trans (execWith_pop_overflow (P := defaultParams) hw h)

theorem exec_call_regByte {v w : Byte} {s : State} (hv : v.toNat + 1 = (spValue s).toNat) (hw : w.toNat = s.pc + 2)
    (r : Reg) : exec (.call (regByte r)) s = .next { writeReg s spIndex v with
      mem := s.mem.write v.toNat w
      pc := (if r = spIndex then v else readReg s r).toNat } :=
  (exec_eq _ s).trans (execWith_call (P := defaultParams) hv hw r)

theorem exec_ret {v : Byte} {s : State} (h : v.toNat = (spValue s).toNat + 1) :
    exec .ret s = .next { writeReg s spIndex v with pc := (s.mem.read (spValue s).toNat).toNat } :=
  (exec_eq _ s).trans (execWith_ret (P := defaultParams) h)

/-! ### The obligations of section 2 -/

/-- Settles O46: PUSH under the default parameters, above 0 and at 0. -/
theorem pushWritesBelowTheStackPointer : Obligations.PushWritesBelowTheStackPointer := by
  refine ⟨fun r s hsp => ?_, fun r s hzero =>
    (exec_eq _ s).trans (execWith_push_underflow (P := defaultParams) hzero r)⟩
  obtain ⟨v, hv⟩ := exists_byte_below hsp
  have hbelow : (spValue s).toNat - 1 = v.toNat := by omega
  rw [hbelow]
  exact ⟨v, rfl, exec_push_regByte hv r⟩

/-- Settles O47: POP under the default parameters, where the stack pointer that moves is the old one or the loaded byte. -/
theorem popReadsAtTheStackPointer : Obligations.PopReadsAtTheStackPointer := by
  refine ⟨fun r s hr hsp => ?_, fun r s hr hfull => ?_, fun s hloaded => ?_, fun s hfull => ?_⟩
  · obtain ⟨v, hv⟩ := exists_byte_above hsp
    exact ⟨v, hv, exec_pop_regByte rfl (by rw [if_neg hr, hv])⟩
  · exact exec_pop_regByte_overflow rfl (by rw [if_neg hr, hfull])
  · obtain ⟨v, hv⟩ := exists_byte_above hloaded
    refine ⟨v, hv, ?_⟩
    rw [exec_pop_regByte rfl (by rw [if_pos rfl, hv]), writeReg_writeReg_self]
  · exact exec_pop_regByte_overflow rfl (by rw [if_pos rfl, hfull])

/-- Settles O48: CALL under the default parameters, with room on both sides, at 254, and at `sp = 0`. -/
theorem callPushesTheReturnAddress : Obligations.CallPushesTheReturnAddress := by
  refine ⟨fun r s hpc hsp => ?_,
    fun r s hpc => (exec_eq _ s).trans (execWith_call_out_of_bounds (P := defaultParams) hpc r),
    fun r s hpc hzero => (exec_eq _ s).trans (execWith_call_underflow (P := defaultParams) hpc hzero r)⟩
  obtain ⟨v, hv⟩ := exists_byte_below hsp
  obtain ⟨w, hw⟩ : ∃ w : Byte, w.toNat = s.pc + 2 := exists_byte (by omega)
  have hbelow : (spValue s).toNat - 1 = v.toNat := by omega
  rw [hbelow]
  exact ⟨v, w, rfl, hw, exec_call_regByte hv hw r⟩

/-- Settles O49: RET under the default parameters, below 255 and at 255. -/
theorem retPopsThePc : Obligations.RetPopsThePc := by
  refine ⟨fun s hsp => ?_,
    fun s hfull => (exec_eq _ s).trans (execWith_ret_overflow (P := defaultParams) hfull), rfl⟩
  obtain ⟨v, hv⟩ := exists_byte_above hsp
  exact ⟨v, hv, exec_ret hv⟩

/-! ### The two laws of section 3 -/

/-- Where the stack pointer was moved to `v` and a byte written there, that is where it points and what it finds. -/
theorem stackTop_of_pushed {s t : State} {v w : Byte} (hregs : t.regs = (writeReg s spIndex v).regs)
    (hmem : t.mem = s.mem.write v.toNat w) : spValue t = v ∧ t.mem.read (spValue t).toNat = w := by
  have hsp : spValue t = v := by
    rw [spValue, readReg, hregs]
    exact readReg_writeReg_self s spIndex v
  exact ⟨hsp, by rw [hsp, hmem, Memory.read_write, if_pos rfl]⟩

/-- Writing a register and the moved stack pointer back restores every register, whatever the stack pointer held between. -/
theorem regs_restored {s t : State} {sp r : Reg} {v w : Byte} (ht : t.regs = (writeReg s sp v).regs)
    (hw : r ≠ sp → w = readReg s r) : (writeReg (writeReg t r w) sp (readReg s sp)).regs = s.regs := by
  have hread (q : Reg) : readReg t q = if q = sp then v else readReg s q := by
    rw [readReg, ht]
    exact readReg_writeReg s sp q v
  refine regs_ext fun q => ?_
  rw [readReg_writeReg, readReg_writeReg, hread]
  by_cases hq : q = sp
  · rw [if_pos hq, hq]
  · by_cases hr : q = r
    · rw [if_neg hq, if_pos hr, hr, hw (hr ▸ hq)]
    · rw [if_neg hq, if_neg hr, if_neg hq]

/-- Settles O50: the POP finds the stack pointer where the PUSH moved it and the pushed value there, so it writes that value
back and moves the stack pointer back. -/
theorem pushThenPopRestoresRegisters : Obligations.PushThenPopRestoresRegisters := by
  intro r s hsp
  obtain ⟨v, hv⟩ := exists_byte_below (b := spValue s) (by omega)
  obtain ⟨w, hw⟩ : ∃ w, w = if r = spIndex then v else readReg s r := ⟨_, rfl⟩
  obtain ⟨t, hpush, ht⟩ : ∃ t, exec (.push (regByte r)) s = .next t ∧
      t = { writeReg s spIndex v with mem := s.mem.write v.toNat w, pc := s.pc + 2 } :=
    ⟨_, exec_push_regByte hv r, by rw [hw]⟩
  obtain ⟨htop, hfound⟩ : spValue t = v ∧ t.mem.read (spValue t).toNat = w :=
    stackTop_of_pushed (by rw [ht]) (by rw [ht])
  have hback : (spValue s).toNat = (if r = spIndex then w else spValue t).toNat + 1 := by
    rw [hw, htop, ← hv]
    split <;> rfl
  have hbelow : (spValue s).toNat - 1 = v.toNat := by omega
  rw [hbelow]
  subst ht
  refine ⟨_, _, hpush, exec_pop_regByte hfound.symm hback, regs_restored rfl fun hr => ?_, rfl, ⟨rfl, rfl, rfl⟩, rfl,
    rfl, rfl, fun x hx => ?_, fun hr => ?_⟩
  · rw [hw, if_neg hr]
  · simp [hx]
  · simp [hw, hr]

/-- Settles O51: the RET finds the return address where the CALL pushed it, and moves the stack pointer back. -/
theorem callThenRetReturns : Obligations.CallThenRetReturns := by
  intro r s hpc hsp
  obtain ⟨v, hv⟩ := exists_byte_below (b := spValue s) (by omega)
  obtain ⟨w, hw⟩ : ∃ w : Byte, w.toNat = s.pc + 2 := exists_byte (by omega)
  obtain ⟨t, hcall, hregs, hmem⟩ : ∃ t, exec (.call (regByte r)) s = .next t ∧
      t.regs = (writeReg s spIndex v).regs ∧ t.mem = s.mem.write v.toNat w :=
    ⟨_, exec_call_regByte hv hw r, rfl, rfl⟩
  obtain ⟨htop, hfound⟩ := stackTop_of_pushed hregs hmem
  refine ⟨t, hcall, fun u husp hucell => ⟨_, exec_ret (v := spValue s) (by rw [husp, htop, hv]), ?_,
    spValue_writeReg_sp u (spValue s)⟩⟩
  rw [hucell, hfound, hw]

end Sys2Proof.Machine

/-! ## The frames of the stack instructions (45_stack_call.md section 2) -/

namespace Sys2Proof.Machine

/-! ### What a completed stack instruction did -/

/-- A completed PUSH or CALL moved the stack pointer down to `w`, stored one byte there, and went on somewhere. -/
theorem Completes.pushCall_inv {sp : Reg} {i : Instr} {s t : State} (h : Completes sp i s t)
    (hi : i.mnemonic ∈ [.push, .call]) : ∃ w v p, w.toNat + 1 = (readReg s sp).toNat ∧
      t = { writeReg s sp w with mem := s.mem.write w.toNat v, pc := p } := by
  cases h with
  | push _ w _ hw | call _ w _ _ hw => exact ⟨w, _, _, hw, rfl⟩
  | _ => simp [Instr.mnemonic] at hi

/-- A completed POP or RET wrote no register but the stack pointer and the destination, and nothing else but `pc`. -/
theorem Completes.popRet_inv {sp : Reg} {i : Instr} {s t : State} (h : Completes sp i s t)
    (hi : i.mnemonic ∈ [.pop, .ret]) : t = { s with regs := t.regs, pc := t.pc } ∧
      ∀ q, q ≠ sp → i.operands[0]? ≠ some (regByte q) → readReg t q = readReg s q := by
  cases h with
  | pop r w =>
    refine ⟨rfl, fun q hq hdest => ?_⟩
    have hne : q ≠ r := by
      rintro rfl
      exact hdest rfl
    exact (readReg_writeReg_ne _ w hq).trans (readReg_writeReg_ne s _ hne)
  | ret w => exact ⟨rfl, fun q hq _ => readReg_writeReg_ne s w hq⟩
  | _ => simp [Instr.mnemonic] at hi

/-! ### The obligations -/

/-- Settles O55: a completed PUSH or CALL stored one byte, at the address the moved stack pointer holds; a fault stores
nothing. -/
theorem pushCallFrame : Obligations.PushCallFrame := by
  intro i s t hi hexec
  rcases exec_next_cases hexec with hdone | ⟨c, -, rfl⟩
  · obtain ⟨w, v, p, hw, rfl⟩ := hdone.pushCall_inv hi
    have hmove : moveSp s ((spValue s).toNat - 1) = .ok (writeReg s spIndex w) := moveSpAt_down hw spIndex s
    refine ⟨fun q hq => readReg_writeReg_ne s w (by simpa using hq), ⟨rfl, rfl, rfl⟩, rfl, .inl ⟨rfl, rfl⟩,
      fun s1 hs1 x hx => ?_, fun c hc => ?_, fun hfault => absurd rfl hfault⟩
    · obtain rfl : writeReg s spIndex w = s1 := by simpa [hmove] using hs1
      rw [spValue_writeReg_sp] at hx
      rw [Memory.read_write, if_neg hx]
    · rw [hmove] at hc
      cases hc
  · have hmem := sameMemory_takeFault c i s
    exact ⟨fun q _ => readReg_takeFault c i s q, sameFlags_takeFault c i s, takeFault_out c i s,
      sameRunOrFaulted_takeFault c i s, fun _ _ x _ => hmem x, fun _ _ => hmem, fun _ => hmem⟩

/-- Settles O56: a completed POP or RET wrote registers and `pc`; a fault writes only `run` and `fault`. -/
theorem popRetFrame : Obligations.PopRetFrame := by
  intro i s t hi hexec
  rcases exec_next_cases hexec with hdone | ⟨c, -, rfl⟩
  · obtain ⟨ht, hregs⟩ := hdone.popRet_inv hi
    refine ⟨hregs, ?_⟩
    rw [ht]
    exact ⟨⟨rfl, rfl, rfl⟩, fun _ => rfl, rfl, .inl ⟨rfl, rfl⟩⟩
  · exact ⟨fun q _ _ => readReg_takeFault c i s q, sameFlags_takeFault c i s, sameMemory_takeFault c i s,
      takeFault_out c i s, sameRunOrFaulted_takeFault c i s⟩

end Sys2Proof.Machine

/-! ## The machine under every opcode map (30_encoding.md R65, R74; 93_implementation_defined.md U1) -/

namespace Sys2Proof

/-- Two bytes that begin with an instruction's operand bytes make the instruction. -/
theorem instrOf_of_operandBytes {i : Instr} {a b : Byte} (ha : ∀ x, i.operands[0]? = some x → a = x)
    (hb : ∀ x, i.operands[1]? = some x → b = x) : instrOf i.mnemonic a b = i := by
  cases i <;> simp_all [Instr.operands, Instr.mnemonic, instrOf]

end Sys2Proof

namespace Sys2Proof.Machine

/-- Where the bytes at `pc` are an instruction's encoding, the fetch window decodes to it. -/
theorem decodeWith_fetchWindow_of_encoded {om : OpcodeMap} (hlegal : om.Legal) {i : Instr} {s : State}
    (hfits : s.pc + i.mnemonic.length ≤ 256)
    (hbytes : ∀ k b, (encodeWith om i)[k]? = some b → s.mem.read (s.pc + k) = b) :
    ∃ rest, decodeWith om (fetchWindow s) = .ok (i, rest) := by
  have hop : s.mem.read s.pc = om i.mnemonic := hbytes 0 _ rfl
  have hm : lookupOpcode om (s.mem.read s.pc) = some i.mnemonic := by
    rw [hop]
    exact lookupOpcode_complete hlegal i.mnemonic
  obtain ⟨rest, hdecode⟩ := decodeWith_take_of_length_le hm (s.mem.read (s.pc + 1)) (s.mem.read (s.pc + 2))
    (n := 256 - s.pc) (by omega)
  rw [← fetchWindow_eq_take, instrOf_of_operandBytes (hbytes 1) (hbytes 2)] at hdecode
  exact ⟨rest, hdecode⟩

/-- The stack pointer's index plays no part in the effect of an instruction outside the stack family. -/
theorem effect_eq_of_not_stack {i : Instr} (hi : i.mnemonic ∉ [.push, .pop, .call, .ret]) (sp sp' : Reg) (s : State) :
    effect sp i s = effect sp' i s := by
  cases i with
  | push | pop | call | ret => simp [Instr.mnemonic] at hi
  | _ => rfl

/-! ### The obligations -/

/-- Settles O58: the window decodes to the instruction its bytes encode, and an unmapped byte is rejected whatever follows
it. -/
theorem everyConfigurationRunsItsOwnOpcodes : Obligations.EveryConfigurationRunsItsOwnOpcodes := by
  refine fun P => ⟨fun i s hrun hfits hbytes => ?_, fun s hrun hpc hunmapped => ?_⟩
  · obtain ⟨rest, hdecode⟩ := decodeWith_fetchWindow_of_encoded P.opcodeMap_legal hfits hbytes
    exact stepBy_of_decode_ok (execWith P) hrun hdecode
  · have hdecode := decodeWith_fetchWindow_of_unmapped hpc hunmapped
    rw [stepWith, stepBy_of_decode_error (execWith P) hrun hdecode]
    exact raisesFault_haltFaulted ..

/-- Settles O59: the effect is the same under both machines, and the opcode map enters only in the record of its fault. -/
theorem everyOpcodeMapGivesTheSameMeaning : Obligations.EveryOpcodeMapGivesTheSameMeaning := by
  intro P i s hsp
  have hsame : effect P.spIndex i s = effect spIndex i s := by
    by_cases hi : i.mnemonic ∈ [.push, .pop, .call, .ret]
    · rw [hsp hi]
    · exact effect_eq_of_not_stack hi P.spIndex spIndex s
  cases heffect : effect spIndex i s with
  | ok u => exact ⟨_, _, exec_of_effect_ok heffect, execWith_of_effect_ok (hsame.trans heffect), .inl rfl⟩
  | error c =>
    exact ⟨_, _, exec_of_effect_error heffect, execWith_of_effect_error (hsame.trans heffect), .inr ⟨c, rfl, rfl⟩⟩

end Sys2Proof.Machine
